-- ==== Sys2Proof/Word.lean ====
section
/-! DEFINITION. Word.lean: the widths of the block (00_scope.md R16), the setup packet (30_encoding.md R71)
and the form in which an operation is presented at a port (R70). -/

namespace Sys2Proof

/-- `u8`: a report byte, a report ID, an interface number, an idle rate (R16). -/
abbrev Byte := BitVec 8

/-- `u16`: the three two-byte fields of a setup packet (R71). -/
abbrev Half := BitVec 16

/-- `u32`: a countdown, `elapsed_ms`, a decode key (R16, R71). -/
abbrev Word := BitVec 32

/-- A byte string, first byte on the wire first (R18). -/
abbrev Bytes := List Byte

/-- A report ID; 0 is the only report of an interface without IDs (R19). -/
abbrev ReportId := Byte

/-- The five fields of the 8-byte USB setup packet (R71). -/
structure SetupPacket where
  bmRequestType : Byte
  bRequest : Byte
  wValue : Half
  wIndex : Half
  wLength : Half
deriving DecidableEq, Repr

/-- The two execution contexts that issue operations (60_exceptions.md R226). -/
inductive Agent
  | app
  | usb
deriving DecidableEq, Repr

/-- The three operation formats (R70). -/
inductive Format
  | setup
  | event
  | call
deriving DecidableEq, Repr

/-- An operation as an agent presents it: its format, and its bytes in that format. -/
structure Presented where
  format : Format
  bytes : Bytes
deriving DecidableEq, Repr

end Sys2Proof
end

