-- ==== Sys2Proof/Config.lean ====
section
/-! DEFINITION. Config.lean: the implementation parameters of 00_scope.md section 3 (R7 to R17), as plain data.
Nothing in a configuration changes at run time (R62). What makes a configuration well formed, and how it is
read, stands in Machine/Configuration.lean. -/

namespace Sys2Proof

/-- Report types (R11): input is device to host, output host to device, feature both (R19). -/
inductive ReportType
  | input
  | output
  | feature
deriving DecidableEq, Repr

/-- The parameters of one registered interface `i`. -/
structure IfConfig where
  /-- `IF_NUM(i)` (R8). -/
  ifNum : Byte
  /-- `BOOT_CAPABLE(i)` (R9). -/
  bootCapable : Bool
  /-- `USES_IDS(i)` (R10). -/
  usesIds : Bool
  /-- `SIZE(i, Input)` (R11): report ID and report size in bytes, rising IDs. -/
  inputSizes : List (ReportId × Nat)
  /-- `SIZE(i, Output)` (R11). -/
  outputSizes : List (ReportId × Nat)
  /-- `SIZE(i, Feature)` (R11). -/
  featureSizes : List (ReportId × Nat)
  /-- `HAS_OUT_EP(i)` (R12). -/
  hasOutEp : Bool
  /-- `IDLE_RESET(i)`, units of 4 ms (R13). -/
  idleReset : Byte
  /-- `REPORT_DESC(i)` (R17). -/
  reportDesc : Bytes
  /-- `HID_DESC(i)` (R17). -/
  hidDesc : Bytes
  /-- `EP_IN(i)`; carried and read by no rule (R17). -/
  epIn : Nat
  /-- `EP_OUT(i)`; carried and read by no rule (R17). -/
  epOut : Nat
  /-- `POLL_INTERVAL(i)` in ms; carried and read by no rule (R17). -/
  pollInterval : Nat
deriving DecidableEq, Repr

/-- `REQ_CODE` (R15): the numeric codes of the request table (R73), of report types (R75), protocols (R76) and
descriptor types (R77). One `bmRequestType` for each group of requests, and one `bRequest` for the three GET_DESCRIPTOR
rows, where R73 lists the bytes row by row: DESIGN CHOICE, unsafe for another `REQ_CODE`, notes/assumptions/22.md. -/
structure ReqCode where
  /-- `bmRequestType` of the GET_* class requests. -/
  classIn : Byte
  /-- `bmRequestType` of the SET_* class requests. -/
  classOut : Byte
  /-- `bmRequestType` of GET_DESCRIPTOR. -/
  stdIn : Byte
  getReport : Byte
  getIdle : Byte
  getProtocol : Byte
  setReport : Byte
  setIdle : Byte
  setProtocol : Byte
  getDescriptor : Byte
  descHid : Byte
  descReport : Byte
  descPhysical : Byte
  typeInput : Byte
  typeOutput : Byte
  typeFeature : Byte
  protoBoot : Byte
  protoReport : Byte
deriving DecidableEq, Repr

/-- The default of `REQ_CODE`: the HID 1.11 and USB 2.0 values the spec takes (R73, R75, R76, R77).
PRESUMED by the spec from general knowledge (G1 to G5): notes/assumptions/14.md. -/
def ReqCode.hid111 : ReqCode where
  classIn := 0xA1
  classOut := 0x21
  stdIn := 0x81
  getReport := 0x01
  getIdle := 0x02
  getProtocol := 0x03
  setReport := 0x09
  setIdle := 0x0A
  setProtocol := 0x0B
  getDescriptor := 0x06
  descHid := 0x21
  descReport := 0x22
  descPhysical := 0x23
  typeInput := 1
  typeOutput := 2
  typeFeature := 3
  protoBoot := 0
  protoReport := 1

/-- The whole configuration of a device of the family. `N_IF` (R7) is the length of `ifs`. -/
structure Config where
  /-- The interfaces in registration order (R7). -/
  ifs : List IfConfig
  /-- `GET_REPORT_CONSUMES` (R14). -/
  getReportConsumes : Bool
  /-- `REQ_CODE` (R15). -/
  reqCode : ReqCode
deriving DecidableEq, Repr

/-- The boot keyboard of Config K and of interface 0 of Config C (95_test_vectors.md section 0), idle rate 125
(R13). Descriptor bytes, endpoint addresses and poll interval are placeholders: DESIGN CHOICE,
notes/assumptions/2.md. -/
def IfConfig.keyboard : IfConfig where
  ifNum := 0
  bootCapable := true
  usesIds := false
  inputSizes := [(0, 8)]
  outputSizes := [(0, 1)]
  featureSizes := []
  hasOutEp := true
  idleReset := 125
  reportDesc := List.replicate 63 0
  hidDesc := List.replicate 9 0
  epIn := 0x81
  epOut := 0x01
  pollInterval := 10

/-- The composite interface 1 of Config C (95_test_vectors.md section 0); placeholders as in
`IfConfig.keyboard` (notes/assumptions/2.md). -/
def IfConfig.composite : IfConfig where
  ifNum := 1
  bootCapable := false
  usesIds := true
  inputSizes := [(1, 3), (2, 3)]
  outputSizes := []
  featureSizes := [(3, 2)]
  hasOutEp := false
  idleReset := 0
  reportDesc := List.replicate 63 0
  hidDesc := List.replicate 9 0
  epIn := 0x82
  epOut := 0x00
  pollInterval := 10

/-- Config K of 95_test_vectors.md section 0. -/
def Config.vectorK : Config where
  ifs := [IfConfig.keyboard]
  getReportConsumes := false
  reqCode := ReqCode.hid111

/-- Config C of 95_test_vectors.md section 0, the configuration `State.reset` carries. -/
def Config.vectorC : Config where
  ifs := [IfConfig.keyboard, IfConfig.composite]
  getReportConsumes := false
  reqCode := ReqCode.hid111

end Sys2Proof
end

