-- ==== Sys2Proof/Syntax.lean ====
section
/-! DEFINITION. Syntax.lean: the operations of the block, one constructor per row of spec/opcode_table.json.
Operands are those of 30_encoding.md R74 (SETUP rows), R80 (CALL rows) and R81 (EVENT rows); a field a request
ignores (R74) is no operand. -/

namespace Sys2Proof

/-- The operations. A SETUP row carries the packet's `wIndex` as it stands: the interface is looked up when the
operation runs (R78), after the row is known (R79). -/
inductive Instr
  /-- GET_REPORT: report type code, report ID, interface number, maximum response length (R152). -/
  | getReport (tc id : Byte) (wIndex wLength : Half)
  /-- GET_IDLE: report ID, interface number, maximum response length (R156). -/
  | getIdle (id : Byte) (wIndex wLength : Half)
  /-- GET_PROTOCOL: interface number, maximum response length (R158). -/
  | getProtocol (wIndex wLength : Half)
  /-- SET_REPORT: report type code, report ID, interface number, data length, data stage (R154). -/
  | setReport (tc id : Byte) (wIndex wLength : Half) (data : Bytes)
  /-- SET_IDLE: duration in units of 4 ms, report ID, interface number (R157). -/
  | setIdle (rate id : Byte) (wIndex : Half)
  /-- SET_PROTOCOL: protocol code, interface number (R159). -/
  | setProtocol (wValue wIndex : Half)
  /-- GET_DESCRIPTOR of type HID: interface number, maximum response length (R160). -/
  | getDescriptorHid (wIndex wLength : Half)
  /-- GET_DESCRIPTOR of type Report (R160). -/
  | getDescriptorReport (wIndex wLength : Half)
  /-- GET_DESCRIPTOR of type Physical (R160). -/
  | getDescriptorPhysical (wIndex wLength : Half)
  /-- write_report: interface index, report bytes (R106). -/
  | writeReport (ix : Nat) (b : Bytes)
  /-- read_report: interface index (R107). -/
  | readReport (ix : Nat)
  /-- get_protocol: interface index (R108). -/
  | getProtocolCall (ix : Nat)
  /-- poll: the acceptance draw, interface 0 first (R190, R192). -/
  | poll (accept : List Bool)
  /-- out_data: interface index, received bytes (R194). -/
  | outData (ix : Nat) (b : Bytes)
  /-- tick: elapsed milliseconds (R132). -/
  | tick (elapsedMs : Word)
  /-- reset (R240). -/
  | reset
  /-- setup: any setup packet and its data stage (R150). -/
  | setup (pkt : SetupPacket) (data : Bytes)
deriving DecidableEq, Repr

end Sys2Proof
end

