-- ==== Sys2Proof/WellFormed.lean ====
section
/-! DEFINITION. WellFormed.lean: which operations have words. Every field of an operation is a bit vector or a
byte string of any length, but for the interface index, which R80 and R81 call a natural: its field in the
model's own words is 32 bits wide (DESIGN CHOICE, notes/assumptions/6.md). -/

namespace Sys2Proof

/-- An interface index fits its operand field. -/
abbrev indexFits (ix : Nat) : Prop := ix < 2 ^ 32

/-- The check of an operation's operands. -/
def Instr.wellFormed : Instr → Bool
  | .getReport _ _ _ _ => true
  | .getIdle _ _ _ => true
  | .getProtocol _ _ => true
  | .setReport _ _ _ _ _ => true
  | .setIdle _ _ _ => true
  | .setProtocol _ _ => true
  | .getDescriptorHid _ _ => true
  | .getDescriptorReport _ _ => true
  | .getDescriptorPhysical _ _ => true
  | .writeReport ix _ => decide (indexFits ix)
  | .readReport ix => decide (indexFits ix)
  | .getProtocolCall ix => decide (indexFits ix)
  | .poll _ => true
  | .outData ix _ => decide (indexFits ix)
  | .tick _ => true
  | .reset => true
  | .setup _ _ => true

end Sys2Proof
end

