-- ==== Sys2Proof/Decode.lean ====
section
/-! DEFINITION. Decode.lean: from presented bytes to an operation, total on any bytes and rejecting by name, and
the encoder after it. SETUP operations are selected by the request table on the decode key (30_encoding.md R71,
R73, R79); CALL and EVENT operations by the spec's own op codes (R80, R81). The layout of CALL and EVENT operands
is the model's own: DESIGN CHOICE, notes/assumptions/6.md. -/

namespace Sys2Proof

/-! ### Bytes of wider fields (R51, R71: low byte first) -/

/-- `v[7:0]` of a 16-bit field (R18). -/
def loByte (h : Half) : Byte := h.setWidth 8

/-- `v[15:8]` of a 16-bit field (R18). -/
def hiByte (h : Half) : Byte := (h >>> 8).setWidth 8

/-- A 16-bit field from its low and its high byte. -/
def halfOf (lo hi : Byte) : Half := lo.setWidth 16 ||| (hi.setWidth 16 <<< 8)

/-- Byte `k` of a 32-bit operand, byte 0 least significant. -/
def wordByte (w : Word) (k : Nat) : Byte := (w >>> (8 * k)).setWidth 8

/-- A 32-bit operand from its bytes, least significant first. -/
def wordOf (b0 b1 b2 b3 : Byte) : Word :=
  b0.setWidth 32 ||| (b1.setWidth 32 <<< 8) ||| (b2.setWidth 32 <<< 16) ||| (b3.setWidth 32 <<< 24)

/-- The four bytes of a 32-bit operand, least significant first. -/
def wordBytes (w : Word) : Bytes := [wordByte w 0, wordByte w 1, wordByte w 2, wordByte w 3]

/-! ### The setup packet (R71, R72) -/

/-- The packet's decode key (R71). -/
def SetupPacket.key (p : SetupPacket) : Word :=
  p.bmRequestType.setWidth 32 ||| (p.bRequest.setWidth 32 <<< 8) |||
    ((loByte p.wValue).setWidth 32 <<< 16) ||| ((hiByte p.wValue).setWidth 32 <<< 24)

/-- The 8 bytes on the wire (R71). -/
def SetupPacket.wire (p : SetupPacket) : Bytes :=
  [p.bmRequestType, p.bRequest, loByte p.wValue, hiByte p.wValue,
    loByte p.wIndex, hiByte p.wIndex, loByte p.wLength, hiByte p.wLength]

/-- A packet and the bytes after it, from at least 8 bytes (R71, R83). -/
def SetupPacket.parse? : Bytes → Option (SetupPacket × Bytes)
  | b0 :: b1 :: b2 :: b3 :: b4 :: b5 :: b6 :: b7 :: rest =>
    some (⟨b0, b1, halfOf b2 b3, halfOf b4 b5, halfOf b6 b7⟩, rest)
  | _ => none

/-- Direction bit of `bmRequestType`: true is device to host (R72). -/
def requestDeviceToHost (t : Byte) : Bool := t.getLsbD 7

/-- Type field of `bmRequestType`: 0 standard, 1 class, 2 vendor, 3 reserved (R72). -/
def requestType (t : Byte) : BitVec 2 := t.extractLsb' 5 2

/-- Recipient field of `bmRequestType`: 0 device, 1 interface, 2 endpoint, 3 other (R72). -/
def requestRecipient (t : Byte) : BitVec 5 := t.extractLsb' 0 5

/-! ### The request table (R73) -/

/-- The nine request rows. -/
inductive Request
  | getReport
  | getIdle
  | getProtocol
  | setReport
  | setIdle
  | setProtocol
  | getDescriptorHid
  | getDescriptorReport
  | getDescriptorPhysical
deriving DecidableEq, Repr

/-- One row of the request table. -/
structure RequestRow where
  request : Request
  mask : Word
  value : Word
deriving DecidableEq, Repr

/-- A row is selected when the key under its mask is its match value (R73). -/
def RequestRow.selects (r : RequestRow) (key : Word) : Bool := key &&& r.mask == r.value

/-- No key is selected by both rows. -/
def RequestRow.disjoint (a b : RequestRow) : Bool :=
  (a.mask &&& b.mask) &&& (a.value ^^^ b.value) != 0

/-- The match value of a class request: `bmRequestType` and `bRequest`. -/
def classValue (reqType req : Byte) : Word := reqType.setWidth 32 ||| (req.setWidth 32 <<< 8)

/-- The match value of a GET_DESCRIPTOR row: `bmRequestType`, `bRequest` and `wValue[15:8]`. -/
def descriptorValue (reqType req desc : Byte) : Word :=
  reqType.setWidth 32 ||| (req.setWidth 32 <<< 8) ||| (desc.setWidth 32 <<< 24)

/-- The request table of R73, in its row order, from the codes of `REQ_CODE` (notes/assumptions/22.md). -/
def ReqCode.table (rc : ReqCode) : List RequestRow :=
  [⟨.getReport, 0x0000FFFF, classValue rc.classIn rc.getReport⟩,
    ⟨.getIdle, 0x0000FFFF, classValue rc.classIn rc.getIdle⟩,
    ⟨.getProtocol, 0x0000FFFF, classValue rc.classIn rc.getProtocol⟩,
    ⟨.setReport, 0x0000FFFF, classValue rc.classOut rc.setReport⟩,
    ⟨.setIdle, 0x0000FFFF, classValue rc.classOut rc.setIdle⟩,
    ⟨.setProtocol, 0x0000FFFF, classValue rc.classOut rc.setProtocol⟩,
    ⟨.getDescriptorHid, 0xFF00FFFF, descriptorValue rc.stdIn rc.getDescriptor rc.descHid⟩,
    ⟨.getDescriptorReport, 0xFF00FFFF, descriptorValue rc.stdIn rc.getDescriptor rc.descReport⟩,
    ⟨.getDescriptorPhysical, 0xFF00FFFF, descriptorValue rc.stdIn rc.getDescriptor rc.descPhysical⟩]

/-- A usable `REQ_CODE`: exactly one row can match a key (R73), and the report type codes (R75) and the protocol
codes (R76) are distinct. The bits of the `bmRequestType` bytes are not looked at, where R72 has the block decode only
interface requests of two types: DESIGN CHOICE, unsafe for another `REQ_CODE`, notes/assumptions/23.md. -/
abbrev ReqCode.Wf (rc : ReqCode) : Prop :=
  rc.table.Pairwise (fun a b => a.disjoint b = true) ∧
    [rc.typeInput, rc.typeOutput, rc.typeFeature].Nodup ∧ rc.protoBoot ≠ rc.protoReport

/-- The request a packet's key selects, if any (R79). -/
def ReqCode.select (rc : ReqCode) (key : Word) : Option Request :=
  (rc.table.find? (fun r => r.selects key)).map RequestRow.request

/-- The operation of a selected request: its operands assembled from the packet (R74). -/
def requestInstr (r : Request) (p : SetupPacket) (data : Bytes) : Instr :=
  match r with
  | .getReport => .getReport (hiByte p.wValue) (loByte p.wValue) p.wIndex p.wLength
  | .getIdle => .getIdle (loByte p.wValue) p.wIndex p.wLength
  | .getProtocol => .getProtocol p.wIndex p.wLength
  | .setReport => .setReport (hiByte p.wValue) (loByte p.wValue) p.wIndex p.wLength data
  | .setIdle => .setIdle (hiByte p.wValue) (loByte p.wValue) p.wIndex
  | .setProtocol => .setProtocol p.wValue p.wIndex
  | .getDescriptorHid => .getDescriptorHid p.wIndex p.wLength
  | .getDescriptorReport => .getDescriptorReport p.wIndex p.wLength
  | .getDescriptorPhysical => .getDescriptorPhysical p.wIndex p.wLength

/-! ### Op codes of CALL and EVENT operations (R80, R81) -/

def opWriteReport : Byte := 0x01
def opReadReport : Byte := 0x02
def opGetProtocol : Byte := 0x03
def opPoll : Byte := 0x10
def opOutData : Byte := 0x11
def opTick : Byte := 0x12
def opReset : Byte := 0x13
def opSetup : Byte := 0x20

/-! ### The decoder -/

/-- Why presented bytes are no operation. -/
inductive DecodeError
  /-- A SETUP packet whose key selects no row (R79, R82(a)). -/
  | notHidRequest
  /-- Fewer bytes than a setup packet has; a SETUP operation always has 8 (R83). -/
  | shortPacket
  /-- No op code byte. -/
  | noOpCode
  /-- An op code that R80 (CALL) or R81 (EVENT) does not list for this format. -/
  | unknownOpCode (op : Byte)
  /-- Fewer operand bytes than the operation has. -/
  | shortOperands (op : Byte)
  /-- Bytes after the last operand. -/
  | trailingBytes (op : Byte)
  /-- An acceptance draw byte that is neither 0 nor 1. -/
  | badDraw (b : Byte)
deriving DecidableEq, Repr

/-- A 32-bit operand and the bytes after it. -/
def takeWord? : Bytes → Option (Word × Bytes)
  | b0 :: b1 :: b2 :: b3 :: rest => some (wordOf b0 b1 b2 b3, rest)
  | _ => none

/-- An operation whose operands are an index and a byte string. -/
def decodeIndexBytes (op : Byte) (f : Nat → Bytes → Instr) (bs : Bytes) : Except DecodeError Instr :=
  match takeWord? bs with
  | some (w, rest) => .ok (f w.toNat rest)
  | none => .error (.shortOperands op)

/-- An operation whose one operand is 32 bits wide. -/
def decodeWordOnly (op : Byte) (f : Word → Instr) (bs : Bytes) : Except DecodeError Instr :=
  match takeWord? bs with
  | some (w, []) => .ok (f w)
  | some (_, _ :: _) => .error (.trailingBytes op)
  | none => .error (.shortOperands op)

/-- The acceptance draw, one byte per interface, 1 for accepted (R81, R84). -/
def decodeDraw : Bytes → Except DecodeError (List Bool)
  | [] => .ok []
  | b :: rest =>
    if b = 0 then (decodeDraw rest).map (false :: ·)
    else if b = 1 then (decodeDraw rest).map (true :: ·)
    else .error (.badDraw b)

/-- The SETUP format (R79 up to the interface lookup, which needs the configuration's interfaces and is made
when the operation runs). -/
def decodeSetup (rc : ReqCode) (bs : Bytes) : Except DecodeError Instr :=
  match SetupPacket.parse? bs with
  | none => .error .shortPacket
  | some (p, data) =>
    match rc.select p.key with
    | none => .error .notHidRequest
    | some r => .ok (requestInstr r p data)

/-- The CALL format (R80). -/
def decodeCall : Bytes → Except DecodeError Instr
  | [] => .error .noOpCode
  | op :: bs =>
    if op = opWriteReport then decodeIndexBytes op .writeReport bs
    else if op = opReadReport then decodeWordOnly op (fun w => .readReport w.toNat) bs
    else if op = opGetProtocol then decodeWordOnly op (fun w => .getProtocolCall w.toNat) bs
    else .error (.unknownOpCode op)

/-- The EVENT format (R81). -/
def decodeEvent : Bytes → Except DecodeError Instr
  | [] => .error .noOpCode
  | op :: bs =>
    if op = opPoll then (decodeDraw bs).map .poll
    else if op = opOutData then decodeIndexBytes op .outData bs
    else if op = opTick then decodeWordOnly op .tick bs
    else if op = opReset then
      match bs with
      | [] => .ok .reset
      | _ :: _ => .error (.trailingBytes op)
    else if op = opSetup then
      match SetupPacket.parse? bs with
      | some (p, data) => .ok (.setup p data)
      | none => .error .shortPacket
    else .error (.unknownOpCode op)

/-- The decoder, total on every presented operation. -/
def decode (rc : ReqCode) (o : Presented) : Except DecodeError Instr :=
  match o.format with
  | .setup => decodeSetup rc o.bytes
  | .event => decodeEvent o.bytes
  | .call => decodeCall o.bytes

/-! ### The encoder -/

/-- The format of an operation (R70, and the table's `format`). -/
def Instr.format : Instr → Format
  | .getReport _ _ _ _ => .setup
  | .getIdle _ _ _ => .setup
  | .getProtocol _ _ => .setup
  | .setReport _ _ _ _ _ => .setup
  | .setIdle _ _ _ => .setup
  | .setProtocol _ _ => .setup
  | .getDescriptorHid _ _ => .setup
  | .getDescriptorReport _ _ => .setup
  | .getDescriptorPhysical _ _ => .setup
  | .writeReport _ _ => .call
  | .readReport _ => .call
  | .getProtocolCall _ => .call
  | .poll _ => .event
  | .outData _ _ => .event
  | .tick _ => .event
  | .reset => .event
  | .setup _ _ => .event

/-- The agent that issues a format (R70). -/
def Format.agent : Format → Agent
  | .setup => .usb
  | .event => .usb
  | .call => .app

/-- The agent that issues an operation (60_exceptions.md R226). -/
def Instr.agent (i : Instr) : Agent := i.format.agent

/-- The setup packet of a request and its data stage, ignored fields zero (R73, R74, R85); the other operations
have none. -/
def Instr.packet? (rc : ReqCode) : Instr → Option (SetupPacket × Bytes)
  | .getReport tc id wIndex wLength => some (⟨rc.classIn, rc.getReport, halfOf id tc, wIndex, wLength⟩, [])
  | .getIdle id wIndex wLength => some (⟨rc.classIn, rc.getIdle, halfOf id 0, wIndex, wLength⟩, [])
  | .getProtocol wIndex wLength => some (⟨rc.classIn, rc.getProtocol, 0, wIndex, wLength⟩, [])
  | .setReport tc id wIndex wLength data =>
    some (⟨rc.classOut, rc.setReport, halfOf id tc, wIndex, wLength⟩, data)
  | .setIdle rate id wIndex => some (⟨rc.classOut, rc.setIdle, halfOf id rate, wIndex, 0⟩, [])
  | .setProtocol wValue wIndex => some (⟨rc.classOut, rc.setProtocol, wValue, wIndex, 0⟩, [])
  | .getDescriptorHid wIndex wLength =>
    some (⟨rc.stdIn, rc.getDescriptor, halfOf 0 rc.descHid, wIndex, wLength⟩, [])
  | .getDescriptorReport wIndex wLength =>
    some (⟨rc.stdIn, rc.getDescriptor, halfOf 0 rc.descReport, wIndex, wLength⟩, [])
  | .getDescriptorPhysical wIndex wLength =>
    some (⟨rc.stdIn, rc.getDescriptor, halfOf 0 rc.descPhysical, wIndex, wLength⟩, [])
  | .writeReport _ _ => none
  | .readReport _ => none
  | .getProtocolCall _ => none
  | .poll _ => none
  | .outData _ _ => none
  | .tick _ => none
  | .reset => none
  | .setup _ _ => none

/-- The bytes of a setup packet followed by its data stage. -/
def packetBytes : Option (SetupPacket × Bytes) → Bytes
  | some (p, data) => p.wire ++ data
  | none => []

/-- One draw byte. -/
def drawByte (b : Bool) : Byte := if b then 1 else 0

/-- The bytes of an operation in its format. -/
def encodeBytes (rc : ReqCode) (i : Instr) : Bytes :=
  match i with
  | .writeReport ix b => opWriteReport :: (wordBytes (BitVec.ofNat 32 ix) ++ b)
  | .readReport ix => opReadReport :: wordBytes (BitVec.ofNat 32 ix)
  | .getProtocolCall ix => opGetProtocol :: wordBytes (BitVec.ofNat 32 ix)
  | .poll accept => opPoll :: accept.map drawByte
  | .outData ix b => opOutData :: (wordBytes (BitVec.ofNat 32 ix) ++ b)
  | .tick e => opTick :: wordBytes e
  | .reset => [opReset]
  | .setup p data => opSetup :: (p.wire ++ data)
  | .getReport _ _ _ _ => packetBytes (i.packet? rc)
  | .getIdle _ _ _ => packetBytes (i.packet? rc)
  | .getProtocol _ _ => packetBytes (i.packet? rc)
  | .setReport _ _ _ _ _ => packetBytes (i.packet? rc)
  | .setIdle _ _ _ => packetBytes (i.packet? rc)
  | .setProtocol _ _ => packetBytes (i.packet? rc)
  | .getDescriptorHid _ _ => packetBytes (i.packet? rc)
  | .getDescriptorReport _ _ => packetBytes (i.packet? rc)
  | .getDescriptorPhysical _ _ => packetBytes (i.packet? rc)

/-- The encoder: the presented form of an operation. -/
def encode (rc : ReqCode) (i : Instr) : Presented := ⟨i.format, encodeBytes rc i⟩

/-! ### Words of the opcode table -/

/-- Byte `k` of a number, byte 0 least significant. -/
def natByte (w k : Nat) : Byte := BitVec.ofNat 8 (w >>> (8 * k))

/-- How many operand bytes of fixed width follow an op code. -/
def operandBytes (op : Byte) : Nat :=
  if op = opWriteReport ∨ op = opReadReport ∨ op = opGetProtocol ∨ op = opOutData ∨ op = opTick then 4
  else if op = opSetup then 8
  else 0

/-- The format of a one-byte table row: the op codes of R80 are CALL, all others are read as EVENT. -/
def opFormat (op : Byte) : Format :=
  if op = opWriteReport ∨ op = opReadReport ∨ op = opGetProtocol then .call else .event

/-- The presented operation of a word of spec/opcode_table.json. A row of one byte is an op code, followed by
operand bytes of zero; a wider row is the head of a setup packet, whose other bytes are zero. -/
def tableOperation (nbits w : Nat) : Presented :=
  if nbits ≤ 8 then
    let op := natByte (w % 2 ^ nbits) 0
    ⟨opFormat op, op :: List.replicate (operandBytes op) 0⟩
  else
    let v := w % 2 ^ nbits
    ⟨.setup, (List.range (max 8 ((nbits + 7) / 8))).map (natByte v)⟩

/-- The operation the decoder reads from a word of spec/opcode_table.json, under the default `REQ_CODE`. -/
def decodeTableWord (nbits w : Nat) : Option Instr :=
  match decode ReqCode.hid111 (tableOperation nbits w) with
  | .ok i => some i
  | .error _ => none

end Sys2Proof
end

