-- ==== Sys2Proof/Machine/Assoc.lean ====
section
/-! DEFINITION. Machine/Assoc.lean: finite maps from report IDs, as lists with strictly rising IDs. A slot map lists
exactly the IDs whose slot is `Some` (10_state.md R24), a timer map the input report IDs, a size map `IDS(i, t)`
(00_scope.md R11); in that form equal maps are equal data (notes/assumptions/19.md). -/

namespace Sys2Proof.Machine

/-- The value listed for an ID. -/
def Assoc.get {α : Type} : List (ReportId × α) → ReportId → Option α
  | [], _ => none
  | (k, v) :: rest, id => if k = id then some v else Assoc.get rest id

/-- List `v` for `id`, in place of any earlier value. -/
def Assoc.set {α : Type} : List (ReportId × α) → ReportId → α → List (ReportId × α)
  | [], id, v => [(id, v)]
  | (k, w) :: rest, id, v =>
    if id < k then (id, v) :: (k, w) :: rest
    else if id = k then (id, v) :: rest
    else (k, w) :: Assoc.set rest id v

/-- List nothing for `id`. -/
def Assoc.erase {α : Type} : List (ReportId × α) → ReportId → List (ReportId × α)
  | [], _ => []
  | (k, v) :: rest, id => if k = id then Assoc.erase rest id else (k, v) :: Assoc.erase rest id

/-- The canonical form: IDs strictly rising. -/
abbrev Assoc.Sorted {α : Type} (m : List (ReportId × α)) : Prop :=
  (m.map Prod.fst).Pairwise (· < ·)

end Sys2Proof.Machine
end

