-- ==== Sys2Proof/Machine/Configuration.lean ====
section
/-! DEFINITION. Machine/Configuration.lean: how a configuration is read, and which configurations are devices of the
family (00_scope.md R7, R8, R11, R12). -/

namespace Sys2Proof

/-- The three report types. -/
def ReportType.all : List ReportType := [.input, .output, .feature]

/-- `SIZE(i, t)` (R11). -/
def IfConfig.sizes (c : IfConfig) : ReportType → List (ReportId × Nat)
  | .input => c.inputSizes
  | .output => c.outputSizes
  | .feature => c.featureSizes

/-- `IDS(i, t)` in rising order (R11). -/
def IfConfig.ids (c : IfConfig) (t : ReportType) : List ReportId := (c.sizes t).map Prod.fst

/-- `SIZE(i, t)(id)`, none for an ID not in `IDS(i, t)` (R11). -/
def IfConfig.size? (c : IfConfig) (t : ReportType) (id : ReportId) : Option Nat :=
  Machine.Assoc.get (c.sizes t) id

/-- Report geometry of one type (R11 (a), (b), (c)), each ID listed once. -/
abbrev IfConfig.GeometryWf (c : IfConfig) (t : ReportType) : Prop :=
  Machine.Assoc.Sorted (c.sizes t) ∧
    (c.usesIds = false → ∀ id ∈ c.ids t, id = 0) ∧
    (c.usesIds = true → ∀ id ∈ c.ids t, id ≠ 0) ∧
    ∀ p ∈ c.sizes t, 1 ≤ p.2

/-- One interface is well formed (R11, R12). -/
abbrev IfConfig.Wf (c : IfConfig) : Prop :=
  (∀ t ∈ ReportType.all, c.GeometryWf t) ∧
    c.ids .input ≠ [] ∧ (c.hasOutEp = true → c.ids .output ≠ [])

/-- A configuration is a device of the family: at least one interface (R7), interface numbers strictly rising in
registration order (R8), each interface well formed (R11, R12), and a usable `REQ_CODE` (R73). -/
abbrev Config.Wf (c : Config) : Prop :=
  c.ifs ≠ [] ∧ (c.ifs.map IfConfig.ifNum).Pairwise (· < ·) ∧ (∀ i ∈ c.ifs, i.Wf) ∧ c.reqCode.Wf

end Sys2Proof
end

