-- ==== Sys2Proof/Machine/State.lean ====
section
/-! DEFINITION. Machine/State.lean: the architectural state of 10_state.md, the outputs of 60_exceptions.md section 3,
the state of the model around them, and the reasons a step can stop. -/

namespace Sys2Proof.Machine

/-- The two protocols (R22). -/
inductive Protocol
  | boot
  | report
deriving DecidableEq, Repr

/-- One Report Buffer `buf[t]`. -/
structure Buffer where
  /-- `slot`: the IDs whose slot is `Some`, each with its report (R24). -/
  slot : List (ReportId × Bytes)
  /-- `order`: the pending IDs, most recently written first (R25). -/
  order : List ReportId
deriving DecidableEq, Repr

/-- One Idle Timer `T[i][id]`. -/
structure Timer where
  /-- Units of 4 ms, 0 is disabled (R27). -/
  idleRate : Byte
  /-- Milliseconds left in the idle window (R28). -/
  countdown : Word
  /-- The last input report of this ID that went out (R29). -/
  lastReport : Option Bytes
  /-- A retransmission is armed and not yet served (R30). -/
  due : Bool
deriving DecidableEq, Repr

/-- One interface cell `IF[i]` (R20). -/
structure Cell where
  protocol : Protocol
  /-- `idle_default` (R23); on an interface without IDs, where the register does not exist, a constant nothing
  reads: notes/assumptions/11.md. -/
  idleDefault : Byte
  input : Buffer
  output : Buffer
  feature : Buffer
  /-- The Idle Timers, one per input report ID (R27 to R30). -/
  timers : List (ReportId × Timer)
deriving DecidableEq, Repr

/-- The reasons of the fault register (R34, R217). -/
inductive FaultReason
  | configError
  | noSuchInterface
deriving DecidableEq, Repr

/-- The state tuple S of R20. -/
structure Block where
  /-- `IF[0]` to `IF[N_IF-1]`. -/
  cells : List Cell
  /-- The fault register (R34). -/
  fault : Option FaultReason
deriving DecidableEq, Repr

/-- Stall reasons (R211). -/
inductive StallReason
  | unsupportedReportId
  | invalidProtocolRequest
  | malformedRequest
  | unsupportedRequest
deriving DecidableEq, Repr

/-- Unhandled reasons (R211). -/
inductive UnhandledReason
  | notHidRequest
  | noSuchInterfaceNumber
deriving DecidableEq, Repr

/-- Drop reasons (R211). -/
inductive DropReason
  | malformedRequest
deriving DecidableEq, Repr

/-- Output events (R223). -/
inductive Event
  | inTransmit (i : Nat) (b : Bytes)
  | inBusy (i : Nat)
  | idleExpired (i : Nat) (id : ReportId)
  | setReport (i : Nat) (t : ReportType) (id : ReportId) (b : Bytes)
deriving DecidableEq, Repr

/-- The outcome of an operation (R210), as returned to the agent that issued it. -/
inductive Result
  /-- `Ok`. -/
  | ok
  /-- `Ok(b)` of read_report. -/
  | report (b : Bytes)
  /-- The protocol get_protocol returns. -/
  | protocol (p : Protocol)
  | ack
  | data (b : Bytes)
  | wouldBlock
  | stall (r : StallReason)
  | unhandled (r : UnhandledReason)
  | dropped (r : DropReason)
  | fault (r : FaultReason)
deriving DecidableEq, Repr

/-- What one operation emits: its events in order, and its outcome (R38, R223). -/
structure Output where
  events : List Event
  result : Result
deriving DecidableEq, Repr

/-- The state of the model. -/
structure State where
  /-- The configuration, written by no operation (notes/assumptions/1.md). -/
  config : Config
  /-- The state tuple S (R20). -/
  block : Block
  /-- The operations the agents have presented and the block has not performed, in their total order (R57);
  the model's own field, notes/assumptions/3.md. -/
  port : List Presented
  /-- The outputs of the operations performed, newest first (R38); no meaning reads it, and it is the model's own
  field, notes/assumptions/7.md. -/
  trace : List Output
deriving DecidableEq, Repr

/-- Why the machine stops where the spec gives an operation no step. -/
inductive Fault
  /-- The fault register is set, so no operation has a step (R224). Raised by every meaning and by step. Safe: the
  spec's own stop. -/
  | sticky (r : FaultReason)
  /-- out_data on an interface without an OUT endpoint has no step (R194). Raised by out_data. Safe: the spec's own
  stop (notes/assumptions/9.md). -/
  | noOutEndpoint
deriving DecidableEq, Repr

/-- Why the model answers no state. -/
inductive Refusal
  /-- An instruction without a meaning. Raised by exec's arms that have none. Safe. -/
  | notModelled (mnemonic : String)
  /-- The presented bytes are no operation of the format. Raised by step. Safe (notes/assumptions/5.md, 6.md). -/
  | undecodable (e : DecodeError)
  /-- The configuration is no device of the family (R11, U3). Raised by step. Safe (notes/assumptions/10.md). -/
  | illFormedConfig
deriving DecidableEq, Repr

/-- An empty Report Buffer (R24, R25). -/
def Buffer.empty : Buffer := ⟨[], []⟩

/-- The reset state of an Idle Timer (R36). -/
def powerOnTimer (c : IfConfig) : Timer where
  idleRate := c.idleReset
  countdown := c.idleReset.setWidth 32 * 4
  lastReport := none
  due := false

/-- The reset state of an interface cell (R36). -/
def powerOnCell (c : IfConfig) : Cell where
  protocol := .report
  idleDefault := c.idleReset
  input := .empty
  output := .empty
  feature := .empty
  timers := (c.ids .input).map (fun id => (id, powerOnTimer c))

/-- The state at power-on of a device of configuration `c` (R37), nothing presented and nothing emitted yet. -/
def State.powerOn (c : Config) : State where
  config := c
  block := ⟨c.ifs.map powerOnCell, none⟩
  port := []
  trace := []

/-- A device is constructed from a well-formed configuration only (R11, R17, R243). -/
def State.construct? (c : Config) : Option State := if c.Wf then some (State.powerOn c) else none

/-- The machine right after reset, of Config C of 95_test_vectors.md: DESIGN CHOICE of configuration,
notes/assumptions/2.md; the register values are those of R36 and R37. -/
def State.reset : State := State.powerOn Config.vectorC

end Sys2Proof.Machine
end

