-- ==== Sys2Proof/Machine/Flags.lean ====
section
/-! DEFINITION. Machine/Flags.lean: the block's only flag, `T.due` (10_state.md R30). There are no condition codes. -/

namespace Sys2Proof.Machine

/-- `due` after an expiry: armed when there is a report to send again, and never dropped (R131). -/
def dueAfterExpiry (t : Timer) : Bool := t.lastReport.isSome || t.due

/-- `due` after a transmission of the timer's report (R133). -/
def dueAfterSent : Bool := false

/-- `due` after the rate becomes `r` (R134). -/
def dueAfterRate (t : Timer) (r : Byte) : Bool := if r = 0 then false else t.due

end Sys2Proof.Machine
end

