-- ==== Sys2Proof/Machine/Operands.lean ====
section
/-! DEFINITION. Machine/Operands.lean: operand forms. Report type and protocol codes (30_encoding.md R75, R76),
interface lookup (R78), the report-shape check (40_report_buffer.md R105), the zeroed report (42_control_requests.md
R153) and the acceptance draw (43_endpoint_events.md R192). -/

namespace Sys2Proof.Machine

/-- The report type of a type code, none for a reserved code (R75). -/
def reportTypeOf (rc : ReqCode) (tc : Byte) : Option ReportType :=
  if tc = rc.typeInput then some .input
  else if tc = rc.typeOutput then some .output
  else if tc = rc.typeFeature then some .feature
  else none

/-- The protocol of SET_PROTOCOL's `wValue`, none for a reserved code (R76). -/
def protocolOf (rc : ReqCode) (wValue : Half) : Option Protocol :=
  if wValue = rc.protoBoot.setWidth 16 then some .boot
  else if wValue = rc.protoReport.setWidth 16 then some .report
  else none

/-- GET_PROTOCOL's response byte (R76, R158). -/
def protocolByte (rc : ReqCode) : Protocol → Byte
  | .boot => rc.protoBoot
  | .report => rc.protoReport

/-- The interface index a `wIndex` addresses (R78): the whole 16 bits are compared. -/
def interfaceIndex (c : Config) (wIndex : Half) : Option Nat :=
  c.ifs.findIdx? (fun i => i.ifNum.setWidth 16 == wIndex)

/-- The ID a report's bytes carry: the leading byte with report IDs, else 0; none for an empty report with IDs. -/
def reportIdOf (c : IfConfig) (b : Bytes) : Option ReportId := if c.usesIds then b.head? else some 0

/-- `ValidReport(i, t, b)` (R105). -/
def validReport (c : IfConfig) (t : ReportType) (b : Bytes) : Option ReportId :=
  match reportIdOf c b with
  | none => none
  | some id => if c.size? t id = some b.length then some id else none

/-- `ZeroReport(i, t, id)` (R153). -/
def zeroReport (c : IfConfig) (t : ReportType) (id : ReportId) : Bytes :=
  if c.usesIds then id :: List.replicate ((c.size? t id).getD 0 - 1) 0
  else List.replicate ((c.size? t 0).getD 0) 0

/-- `accept(i)` of a draw written as a list, interface 0 first (R84, R192); no entry is no acceptance
(notes/assumptions/13.md). -/
def accepted (accept : List Bool) (i : Nat) : Bool := accept.getD i false

/-- The idle rates' period in milliseconds (R130). -/
def period (rate : Byte) : Word := rate.setWidth 32 * 4

/-- Saturating subtraction (R18). -/
def saturatingSub (a b : Word) : Word := if b ≤ a then a - b else 0

end Sys2Proof.Machine
end

