-- ==== Sys2Proof/Machine/Ops.lean ====
section
/-! DEFINITION. Machine/Ops.lean: the named operations over the state. Reads and writes of a cell's parts; the
Report Buffer primitives (40_report_buffer.md R100 to R104); the Idle Timer primitives (41_idle_timer.md R131,
R133, R134); the routing of an operation to one interface or to all (30_encoding.md R78, 20_memory.md R59); raising
a fault (10_state.md R34) and committing an operation's effect. -/

namespace Sys2Proof.Machine

/-! ### Parts of a cell -/

/-- `IF[i].buf[t]`. -/
def Cell.buf (cell : Cell) : ReportType → Buffer
  | .input => cell.input
  | .output => cell.output
  | .feature => cell.feature

/-- Write `IF[i].buf[t]`. -/
def Cell.setBuf (cell : Cell) (t : ReportType) (b : Buffer) : Cell :=
  match t with
  | .input => { cell with input := b }
  | .output => { cell with output := b }
  | .feature => { cell with feature := b }

/-- Write `IF[i].protocol` (R22). -/
def Cell.setProtocol (cell : Cell) (p : Protocol) : Cell := { cell with protocol := p }

/-- Write `IF[i].idle_default` (R23). -/
def Cell.setIdleDefault (cell : Cell) (r : Byte) : Cell := { cell with idleDefault := r }

/-- What a timer reads as for an ID that has none; no ID of `IDS(i, Input)` is in this case in a state that meets
the invariant (notes/assumptions/12.md). -/
def Timer.absent : Timer := ⟨0, 0, none, false⟩

/-- `T[i][id]`. -/
def Cell.timer (cell : Cell) (id : ReportId) : Timer := (Assoc.get cell.timers id).getD Timer.absent

/-- Write `T[i][id]`. -/
def Cell.setTimer (cell : Cell) (id : ReportId) (t : Timer) : Cell :=
  { cell with timers := Assoc.set cell.timers id t }

/-! ### Report Buffer primitives -/

/-- `IF[i].buf[t].slot[id]`. -/
def Buffer.get (b : Buffer) (id : ReportId) : Option Bytes := Assoc.get b.slot id

/-- `BufWrite` (R100). -/
def Buffer.write (b : Buffer) (id : ReportId) (r : Bytes) : Buffer :=
  ⟨Assoc.set b.slot id r, id :: b.order.filter (· ≠ id)⟩

/-- `BufRead` (R101): the newest pending report and the buffer without it. (An ID in `order` with an empty slot,
which R26 rules out, reads as nothing pending: notes/assumptions/12.md.) -/
def Buffer.read (b : Buffer) : Option (Bytes × Buffer) :=
  match b.order with
  | [] => none
  | id :: rest => (b.get id).map (fun r => (r, ⟨Assoc.erase b.slot id, rest⟩))

/-- `BufTake` (R102): the report of one ID and the buffer without it. -/
def Buffer.take (b : Buffer) (id : ReportId) : Option Bytes × Buffer :=
  (b.get id, ⟨Assoc.erase b.slot id, b.order.filter (· ≠ id)⟩)

/-- `BufPeek` (R103). -/
def Buffer.peek (b : Buffer) (id : ReportId) : Option Bytes := b.get id

/-- `BufClear` (R104): every slot `None`, `order` empty. -/
def Buffer.clear (_ : Buffer) : Buffer := ⟨[], []⟩

/-! ### Idle Timer primitives -/

/-- `TimerTick` (R131): the timer after `e` ms, and whether it expired. -/
def Timer.tick (t : Timer) (e : Word) : Timer × Bool :=
  if t.idleRate = 0 then (t, false)
  else if saturatingSub t.countdown e = 0 then
    ({ t with countdown := period t.idleRate, due := dueAfterExpiry t }, true)
  else ({ t with countdown := saturatingSub t.countdown e }, false)

/-- `NoteReportSent` (R133). -/
def Timer.noteSent (t : Timer) (b : Bytes) : Timer :=
  { t with lastReport := some b, countdown := period t.idleRate, due := dueAfterSent }

/-- `SetRate` (R134). -/
def Timer.setRate (t : Timer) (r : Byte) : Timer :=
  { t with idleRate := r, countdown := period r, due := dueAfterRate t r }

/-! ### Effects -/

/-- What an operation does: the block after it, its events and its outcome (R52, R210, R223). -/
structure Effect where
  block : Block
  events : List Event
  result : Result
deriving DecidableEq, Repr

/-- What an operation does to the one cell it addresses. -/
structure CellEffect where
  cell : Cell
  events : List Event
  result : Result
deriving DecidableEq, Repr

/-- Write `IF[i]`. -/
def Block.setCell (b : Block) (i : Nat) (cell : Cell) : Block := { b with cells := b.cells.set i cell }

/-- Write the fault register. -/
def Block.setFault (b : Block) (r : FaultReason) : Block := { b with fault := some r }

/-- Raising a fault, the block's only exception: the reason goes to the fault register and nothing else changes
(R34, R53, R217). There is no trap entry, no saved state and no return (R220, R221). -/
def raiseFault (r : FaultReason) (b : Block) : Effect := ⟨b.setFault r, [], .fault r⟩

/-- An operation that ends without touching its cell (R53). -/
def unchanged (cell : Cell) (r : Result) : CellEffect := ⟨cell, [], r⟩

/-- A control request rejected at the protocol level (R218). -/
def stall (r : StallReason) (cell : Cell) : CellEffect := unchanged cell (.stall r)

/-- A data stage, cut to `wLength` bytes (R151). -/
def answer (wLength : Half) (v : Bytes) (cell : Cell) : CellEffect := unchanged cell (.data (v.take wLength.toNat))

/-- A control request the block declines; the USB stack answers it (R216). -/
def decline (r : UnhandledReason) (b : Block) : Effect := ⟨b, [], .unhandled r⟩

/-- `IF[i]` and its configuration, for an index below `N_IF`. -/
def cellAt (c : Config) (b : Block) (i : Nat) : Option (IfConfig × Cell) :=
  match c.ifs[i]?, b.cells[i]? with
  | some ic, some cell => some (ic, cell)
  | _, _ => none

/-- Put a cell's effect into the block. -/
def Block.store (b : Block) (i : Nat) (e : CellEffect) : Effect := ⟨b.setCell i e.cell, e.events, e.result⟩

/-- An operation that names its interface by index (R80, R81): an index no interface has is a fault, and the
operation itself may raise one. -/
def onInterface (ix : Nat) (f : IfConfig → Cell → Except FaultReason CellEffect) (c : Config) (b : Block) : Effect :=
  match cellAt c b ix with
  | none => raiseFault .noSuchInterface b
  | some (ic, cell) =>
    match f ic cell with
    | .error r => raiseFault r b
    | .ok e => b.store ix e

/-- A control request, routed by interface number (R78): it reaches one cell, or none, and it cannot fault
(R150). -/
def routed (wIndex : Half) (f : Nat → IfConfig → Cell → CellEffect) (c : Config) (b : Block) : Effect :=
  match interfaceIndex c wIndex with
  | none => decline .noSuchInterfaceNumber b
  | some i =>
    match cellAt c b i with
    | none => decline .noSuchInterfaceNumber b
    | some (ic, cell) => b.store i (f i ic cell)

/-- Every interface in registration order from index `i` on (R59, R132), events in that order. -/
def serviceFrom (f : Nat → IfConfig → Cell → Cell × List Event) :
    Nat → List IfConfig → List Cell → List Cell × List Event
  | i, ic :: ics, cell :: cells =>
    let here := f i ic cell
    let rest := serviceFrom f (i + 1) ics cells
    (here.1 :: rest.1, here.2 ++ rest.2)
  | _, _, cells => (cells, [])

/-- Every interface in registration order; the operation then ends with `Ok`. -/
def onEveryInterface (f : Nat → IfConfig → Cell → Cell × List Event) (c : Config) (b : Block) : Effect :=
  let r := serviceFrom f 0 c.ifs b.cells
  ⟨{ b with cells := r.1 }, r.2, .ok⟩

/-! ### Steps -/

/-- Put an operation's effect into the state and its output on the trace, in one step (R52, R38). -/
def commit (s : State) (e : Effect) : State :=
  { s with block := e.block, trace := ⟨e.events, e.result⟩ :: s.trace }

/-- With the fault register set no operation has a step (R224). -/
def unlessFaulted (s : State) (k : Host.Outcome State Fault Refusal) : Host.Outcome State Fault Refusal :=
  match s.block.fault with
  | some r => .fault (.sticky r)
  | none => k

/-- One atomic operation (R52). -/
def perform (s : State) (f : Config → Block → Effect) : Host.Outcome State Fault Refusal :=
  unlessFaulted s (.next (commit s (f s.config s.block)))

/-- Present an operation as the next one to be performed. -/
def State.present (s : State) (o : Presented) : State := { s with port := o :: s.port }

/-- The next presented operation, and the state in which it has left the port. -/
def State.fetch (s : State) : Option (Presented × State) :=
  match s.port with
  | [] => none
  | o :: rest => some (o, { s with port := rest })

/-- What step does with presented bytes that decode to no operation: a setup packet that selects no row is declined
(R79, R82(a)), anything else is not an operation of the block (R83, R80, R81). -/
def rejected (e : DecodeError) (s : State) : Host.Outcome State Fault Refusal :=
  match e with
  | .notHidRequest => perform s (fun _ b => decline .notHidRequest b)
  | e => .refused (.undecodable e)

/-! ### Error codes -/

/-- The number of a stall reason (R211). -/
def StallReason.code : StallReason → Nat
  | .unsupportedReportId => 2
  | .invalidProtocolRequest => 3
  | .malformedRequest => 4
  | .unsupportedRequest => 5

/-- The number of an Unhandled reason (R211). -/
def UnhandledReason.code : UnhandledReason → Nat
  | .notHidRequest => 6
  | .noSuchInterfaceNumber => 7

/-- The number of a drop reason (R211). -/
def DropReason.code : DropReason → Nat
  | .malformedRequest => 4

/-- The number of a fault reason (R211). -/
def FaultReason.code : FaultReason → Nat
  | .configError => 8
  | .noSuchInterface => 9

/-- The error code of an outcome, none for a completed operation (R210, R211). -/
def Result.errorCode : Result → Option Nat
  | .ok => none
  | .report _ => none
  | .protocol _ => none
  | .ack => none
  | .data _ => none
  | .wouldBlock => some 1
  | .stall r => some r.code
  | .unhandled r => some r.code
  | .dropped r => some r.code
  | .fault r => some r.code

/-- The error code of an event: `InBusy` is poll's `WouldBlock` for one interface (R211). -/
def Event.errorCode : Event → Option Nat
  | .inTransmit _ _ => none
  | .inBusy _ => some 1
  | .idleExpired _ _ => none
  | .setReport _ _ _ _ => none

end Sys2Proof.Machine
end

