-- ==== Sys2Proof/Machine/Application.lean ====
section
/-! DEFINITION. Machine/Application.lean: the application operations (40_report_buffer.md R106 to R108). -/

namespace Sys2Proof.Machine

/-- write_report on its interface (R106). -/
def writeReportOn (b : Bytes) (ic : IfConfig) (cell : Cell) : Except FaultReason CellEffect :=
  match validReport ic .input b with
  | none => .error .configError
  | some id => .ok ⟨cell.setBuf .input ((cell.buf .input).write id b), [], .ok⟩

/-- write_report (R106). -/
def execWriteReport (ix : Nat) (b : Bytes) (s : State) : Host.Outcome State Fault Refusal :=
  perform s (onInterface ix (writeReportOn b))

/-- read_report on its interface (R107). -/
def readReportOn (_ : IfConfig) (cell : Cell) : Except FaultReason CellEffect :=
  match (cell.buf .output).read with
  | none => .ok (unchanged cell .wouldBlock)
  | some (b, rest) => .ok ⟨cell.setBuf .output rest, [], .report b⟩

/-- read_report (R107). -/
def execReadReport (ix : Nat) (s : State) : Host.Outcome State Fault Refusal :=
  perform s (onInterface ix readReportOn)

/-- get_protocol on its interface (R108). -/
def getProtocolOn (_ : IfConfig) (cell : Cell) : Except FaultReason CellEffect :=
  .ok (unchanged cell (.protocol cell.protocol))

/-- get_protocol (R108). -/
def execGetProtocolCall (ix : Nat) (s : State) : Host.Outcome State Fault Refusal :=
  perform s (onInterface ix getProtocolOn)

end Sys2Proof.Machine
end

