-- ==== Sys2Proof/Machine/Endpoints.lean ====
section
/-! DEFINITION. Machine/Endpoints.lean: the interrupt endpoint events `poll` and `out_data` (43_endpoint_events.md
R190 to R194). -/

namespace Sys2Proof.Machine

/-- Why a report goes out (R191). -/
inductive SendKind
  | fresh
  | retransmit
deriving DecidableEq, Repr

/-- What an interface would send (R191). -/
structure Candidate where
  kind : SendKind
  id : ReportId
  bytes : Bytes
deriving DecidableEq, Repr

/-- The newest pending input report (R191, first case). -/
def freshCandidate (cell : Cell) : Option Candidate :=
  match (cell.buf .input).order with
  | [] => none
  | id :: _ => ((cell.buf .input).get id).map (fun b => ⟨.fresh, id, b⟩)

/-- The last report of the lowest due input ID (R191, second case); `IDS(i, Input)` is rising. -/
def dueCandidate (ic : IfConfig) (cell : Cell) : Option Candidate :=
  match (ic.ids .input).find? (fun id => (cell.timer id).due) with
  | none => none
  | some id => (cell.timer id).lastReport.map (fun b => ⟨.retransmit, id, b⟩)

/-- `Candidate(i)` (R191): a pending report before any retransmission. -/
def candidate (ic : IfConfig) (cell : Cell) : Option Candidate :=
  if (cell.buf .input).order = [] then dueCandidate ic cell else freshCandidate cell

/-- The cell after a transmission (R190): a fresh report leaves the buffer, and the timer of its ID is told
(R133). -/
def sent (x : Candidate) (cell : Cell) : Cell :=
  let cell' :=
    match x.kind with
    | .fresh =>
      match (cell.buf .input).read with
      | some (_, rest) => cell.setBuf .input rest
      | none => cell
    | .retransmit => cell
  cell'.setTimer x.id ((cell'.timer x.id).noteSent x.bytes)

/-- poll on one interface (R190). -/
def pollCell (accept : List Bool) (i : Nat) (ic : IfConfig) (cell : Cell) : Cell × List Event :=
  match candidate ic cell with
  | none => (cell, [])
  | some x => if accepted accept i then (sent x cell, [.inTransmit i x.bytes]) else (cell, [.inBusy i])

/-- poll (R190). -/
def execPoll (accept : List Bool) (s : State) : Host.Outcome State Fault Refusal :=
  perform s (onEveryInterface (pollCell accept))

/-- out_data on its interface (R194). -/
def outDataOn (i : Nat) (b : Bytes) (ic : IfConfig) (cell : Cell) : Except FaultReason CellEffect :=
  match validReport ic .output b with
  | none => .ok (unchanged cell (.dropped .malformedRequest))
  | some id => .ok ⟨cell.setBuf .output ((cell.buf .output).write id b), [.setReport i .output id b], .ok⟩

/-- The index names an interface without an OUT endpoint (R194's precondition fails). -/
def lacksOutEndpoint (c : Config) (ix : Nat) : Bool := c.ifs[ix]?.any (fun ic => !ic.hasOutEp)

/-- out_data (R194): without an OUT endpoint it has no step. -/
def execOutData (ix : Nat) (b : Bytes) (s : State) : Host.Outcome State Fault Refusal :=
  if lacksOutEndpoint s.config ix then unlessFaulted s (.fault .noOutEndpoint)
  else perform s (onInterface ix (outDataOn ix b))

end Sys2Proof.Machine
end

