-- ==== Sys2Proof/Machine/IdleTimer.lean ====
section
/-! DEFINITION. Machine/IdleTimer.lean: `tick` (41_idle_timer.md R132). -/

namespace Sys2Proof.Machine

/-- Advance the timers of the listed IDs of interface `i`, in that order (R132). -/
def tickTimers (i : Nat) (e : Word) : List ReportId → Cell → Cell × List Event
  | [], cell => (cell, [])
  | id :: ids, cell =>
    let t := (cell.timer id).tick e
    let rest := tickTimers i e ids (cell.setTimer id t.1)
    (rest.1, if t.2 then .idleExpired i id :: rest.2 else rest.2)

/-- tick on one interface: every input report ID, ascending (R132). -/
def tickCell (e : Word) (i : Nat) (ic : IfConfig) (cell : Cell) : Cell × List Event :=
  tickTimers i e (ic.ids .input) cell

/-- tick (R132). -/
def execTick (e : Word) (s : State) : Host.Outcome State Fault Refusal :=
  perform s (onEveryInterface (tickCell e))

end Sys2Proof.Machine
end

