-- ==== Sys2Proof/Machine/Requests.lean ====
section
/-! DEFINITION. Machine/Requests.lean: the control requests (42_control_requests.md R150 to R160). A request's checks
stand in the order of 60_exceptions.md R219. -/

namespace Sys2Proof.Machine

/-! ### Report requests -/

/-- GET_REPORT on its interface (R152). -/
def getReportOn (c : Config) (tc id : Byte) (wLength : Half) (_ : Nat) (ic : IfConfig) (cell : Cell) : CellEffect :=
  match reportTypeOf c.reqCode tc with
  | none => stall .malformedRequest cell
  | some t =>
    if id ∈ ic.ids t then
      if c.getReportConsumes then
        let taken := (cell.buf t).take id
        answer wLength (taken.1.getD (zeroReport ic t id)) (cell.setBuf t taken.2)
      else answer wLength (((cell.buf t).peek id).getD (zeroReport ic t id)) cell
    else stall .unsupportedReportId cell

/-- GET_REPORT (R152). -/
def execGetReport (tc id : Byte) (wIndex wLength : Half) (s : State) : Host.Outcome State Fault Refusal :=
  perform s (routed wIndex (getReportOn s.config tc id wLength))

/-- SET_REPORT of a decoded type on interface `i` (R154, R155). -/
def storeReport (i : Nat) (t : ReportType) (id : ReportId) (data : Bytes) (ic : IfConfig) (cell : Cell) : CellEffect :=
  if id ∈ ic.ids t then
    if validReport ic t data = some id then
      ⟨cell.setBuf t ((cell.buf t).write id data), [.setReport i t id data], .ack⟩
    else stall .malformedRequest cell
  else stall .unsupportedReportId cell

/-- SET_REPORT on its interface (R154). -/
def setReportOn (c : Config) (tc id : Byte) (data : Bytes) (i : Nat) (ic : IfConfig) (cell : Cell) : CellEffect :=
  match reportTypeOf c.reqCode tc with
  | none => stall .malformedRequest cell
  | some .input => stall .malformedRequest cell
  | some .output => storeReport i .output id data ic cell
  | some .feature => storeReport i .feature id data ic cell

/-- SET_REPORT (R154); `wLength` is not compared with the data (R83). -/
def execSetReport (tc id : Byte) (wIndex _wLength : Half) (data : Bytes) (s : State) :
    Host.Outcome State Fault Refusal :=
  perform s (routed wIndex (setReportOn s.config tc id data))

/-! ### Idle requests -/

/-- GET_IDLE on its interface (R156). -/
def getIdleOn (id : Byte) (wLength : Half) (_ : Nat) (ic : IfConfig) (cell : Cell) : CellEffect :=
  if id = 0 then
    answer wLength [if ic.usesIds then cell.idleDefault else (cell.timer 0).idleRate] cell
  else if ic.usesIds = true ∧ id ∈ ic.ids .input then answer wLength [(cell.timer id).idleRate] cell
  else stall .unsupportedReportId cell

/-- GET_IDLE (R156). -/
def execGetIdle (id : Byte) (wIndex wLength : Half) (s : State) : Host.Outcome State Fault Refusal :=
  perform s (routed wIndex (getIdleOn id wLength))

/-- `SetRate` on the timers of the listed IDs (R134, R157). -/
def setRates (r : Byte) : List ReportId → Cell → Cell
  | [], cell => cell
  | id :: ids, cell => setRates r ids (cell.setTimer id ((cell.timer id).setRate r))

/-- SET_IDLE on its interface (R157). -/
def setIdleOn (rate id : Byte) (_ : Nat) (ic : IfConfig) (cell : Cell) : CellEffect :=
  if id = 0 then
    let cell' := if ic.usesIds then cell.setIdleDefault rate else cell
    ⟨setRates rate (ic.ids .input) cell', [], .ack⟩
  else if ic.usesIds = true ∧ id ∈ ic.ids .input then ⟨setRates rate [id] cell, [], .ack⟩
  else stall .unsupportedReportId cell

/-- SET_IDLE (R157). -/
def execSetIdle (rate id : Byte) (wIndex : Half) (s : State) : Host.Outcome State Fault Refusal :=
  perform s (routed wIndex (setIdleOn rate id))

/-! ### Protocol requests -/

/-- GET_PROTOCOL on its interface (R158). -/
def getProtocolByteOn (c : Config) (wLength : Half) (_ : Nat) (_ : IfConfig) (cell : Cell) : CellEffect :=
  answer wLength [protocolByte c.reqCode cell.protocol] cell

/-- GET_PROTOCOL (R158). -/
def execGetProtocol (wIndex wLength : Half) (s : State) : Host.Outcome State Fault Refusal :=
  perform s (routed wIndex (getProtocolByteOn s.config wLength))

/-- SET_PROTOCOL on its interface (R159). -/
def setProtocolOn (c : Config) (wValue : Half) (_ : Nat) (ic : IfConfig) (cell : Cell) : CellEffect :=
  if ic.bootCapable then
    match protocolOf c.reqCode wValue with
    | some p => ⟨cell.setProtocol p, [], .ack⟩
    | none => stall .malformedRequest cell
  else stall .invalidProtocolRequest cell

/-- SET_PROTOCOL (R159). -/
def execSetProtocol (wValue wIndex : Half) (s : State) : Host.Outcome State Fault Refusal :=
  perform s (routed wIndex (setProtocolOn s.config wValue))

/-! ### Descriptor requests -/

/-- GET_DESCRIPTOR(HID) (R160). -/
def execGetDescriptorHid (wIndex wLength : Half) (s : State) : Host.Outcome State Fault Refusal :=
  perform s (routed wIndex (fun _ ic cell => answer wLength ic.hidDesc cell))

/-- GET_DESCRIPTOR(Report) (R160). -/
def execGetDescriptorReport (wIndex wLength : Half) (s : State) : Host.Outcome State Fault Refusal :=
  perform s (routed wIndex (fun _ ic cell => answer wLength ic.reportDesc cell))

/-- GET_DESCRIPTOR(Physical): no interface owns one (R160). -/
def execGetDescriptorPhysical (wIndex _wLength : Half) (s : State) : Host.Outcome State Fault Refusal :=
  perform s (routed wIndex (fun _ _ cell => stall .unsupportedRequest cell))

/-! ### The request step -/

/-- setup: decode the packet, route the request, complete it (R150, R79). -/
def execSetup (p : SetupPacket) (data : Bytes) (s : State) : Host.Outcome State Fault Refusal :=
  match s.config.reqCode.select p.key with
  | none => perform s (fun _ b => decline .notHidRequest b)
  | some .getReport => execGetReport (hiByte p.wValue) (loByte p.wValue) p.wIndex p.wLength s
  | some .getIdle => execGetIdle (loByte p.wValue) p.wIndex p.wLength s
  | some .getProtocol => execGetProtocol p.wIndex p.wLength s
  | some .setReport => execSetReport (hiByte p.wValue) (loByte p.wValue) p.wIndex p.wLength data s
  | some .setIdle => execSetIdle (hiByte p.wValue) (loByte p.wValue) p.wIndex s
  | some .setProtocol => execSetProtocol p.wValue p.wIndex s
  | some .getDescriptorHid => execGetDescriptorHid p.wIndex p.wLength s
  | some .getDescriptorReport => execGetDescriptorReport p.wIndex p.wLength s
  | some .getDescriptorPhysical => execGetDescriptorPhysical p.wIndex p.wLength s

end Sys2Proof.Machine
end

