-- ==== Sys2Proof/Machine/Reset.lean ====
section
/-! DEFINITION. Machine/Reset.lean: `reset` (70_reset_and_hazards.md R240). -/

namespace Sys2Proof.Machine

/-- The reset values of an Idle Timer (R36, R240). -/
def resetTimer (ic : IfConfig) : Timer := ⟨ic.idleReset, ic.idleReset.setWidth 32 * 4, none, false⟩

/-- The timers of the listed IDs at their reset values. -/
def resetTimers (ic : IfConfig) : List ReportId → Cell → Cell
  | [], cell => cell
  | id :: ids, cell => resetTimers ic ids (cell.setTimer id (resetTimer ic))

/-- reset on one interface (R240): protocol, default rate where it exists, the three buffers, the timers; it
emits nothing. -/
def resetCell (_ : Nat) (ic : IfConfig) (cell : Cell) : Cell × List Event :=
  let cell1 := cell.setProtocol .report
  let cell2 := if ic.usesIds then cell1.setIdleDefault ic.idleReset else cell1
  let cell3 := ((cell2.setBuf .input (cell2.buf .input).clear).setBuf .output (cell2.buf .output).clear).setBuf
    .feature (cell2.buf .feature).clear
  (resetTimers ic (ic.ids .input) cell3, [])

/-- reset (R240); the fault register is not touched. -/
def execReset (s : State) : Host.Outcome State Fault Refusal :=
  perform s (onEveryInterface resetCell)

end Sys2Proof.Machine
end

