-- ==== Sys2Proof/Machine/Dispatch.lean ====
section
/-! DEFINITION. Machine/Dispatch.lean: one arm per operation. -/

namespace Sys2Proof.Machine

def exec (i : Instr) (s : State) : Host.Outcome State Fault Refusal :=
  match i with
  -- control requests (42_control_requests.md)
  | .getReport tc id wIndex wLength => Sys2Proof.Machine.execGetReport tc id wIndex wLength s
  | .getIdle id wIndex wLength => Sys2Proof.Machine.execGetIdle id wIndex wLength s
  | .getProtocol wIndex wLength => Sys2Proof.Machine.execGetProtocol wIndex wLength s
  | .setReport tc id wIndex wLength data => Sys2Proof.Machine.execSetReport tc id wIndex wLength data s
  | .setIdle rate id wIndex => Sys2Proof.Machine.execSetIdle rate id wIndex s
  | .setProtocol wValue wIndex => Sys2Proof.Machine.execSetProtocol wValue wIndex s
  | .getDescriptorHid wIndex wLength => Sys2Proof.Machine.execGetDescriptorHid wIndex wLength s
  | .getDescriptorReport wIndex wLength => Sys2Proof.Machine.execGetDescriptorReport wIndex wLength s
  | .getDescriptorPhysical wIndex wLength => Sys2Proof.Machine.execGetDescriptorPhysical wIndex wLength s
  -- application operations (40_report_buffer.md)
  | .writeReport ix b => Sys2Proof.Machine.execWriteReport ix b s
  | .readReport ix => Sys2Proof.Machine.execReadReport ix s
  | .getProtocolCall ix => Sys2Proof.Machine.execGetProtocolCall ix s
  -- events (43_endpoint_events.md, 41_idle_timer.md, 70_reset_and_hazards.md, 42_control_requests.md)
  | .poll accept => Sys2Proof.Machine.execPoll accept s
  | .outData ix b => Sys2Proof.Machine.execOutData ix b s
  | .tick elapsedMs => Sys2Proof.Machine.execTick elapsedMs s
  | .reset => Sys2Proof.Machine.execReset s
  | .setup pkt data => Sys2Proof.Machine.execSetup pkt data s

end Sys2Proof.Machine
end

