-- ==== Sys2Proof/Machine/Step.lean ====
section
/-! DEFINITION. Machine/Step.lean: one step of the block: the next presented operation is decoded and performed. -/

namespace Sys2Proof.Machine

/-- One step. An ill-formed configuration is refused before any operation (R11, U3; notes/assumptions/10.md); a
faulted block has no step (R224); with nothing presented nothing happens (notes/assumptions/4.md); else the
operation at the head of the port is taken and performed as one atomic step (R52, R57). -/
def step (s : State) : Host.Outcome State Fault Refusal :=
  if s.config.Wf then
    unlessFaulted s
      (match s.fetch with
      | none => .next s
      | some (o, s') =>
        match decode s'.config.reqCode o with
        | .ok i => exec i s'
        | .error e => rejected e s')
  else .refused .illFormedConfig

/-- The state in which the word of a table row is the next operation presented (notes/assumptions/3.md). -/
def State.withFetchWord (s : State) (nbits w : Nat) : State := s.present (tableOperation nbits w)

end Sys2Proof.Machine
end

