-- ==== Sys2Proof/Machine/TraceSyntax.lean ====
section
/-! DEFINITION. Machine/TraceSyntax.lean: the written form of operations (30_encoding.md R84) and the
pseudo-instructions that expand to setup packets (R85). They name operations and have no behaviour (D44). Where R84
and R85 leave hexadecimal or decimal open the model picks one: DESIGN CHOICE, notes/assumptions/20.md. -/

namespace Sys2Proof.Machine

/-- The type code of a report type (R75). -/
def typeCode (rc : ReqCode) : ReportType → Byte
  | .input => rc.typeInput
  | .output => rc.typeOutput
  | .feature => rc.typeFeature

/-- The wire code of a protocol (R76). -/
def protocolCode (rc : ReqCode) : Protocol → Byte
  | .boot => rc.protoBoot
  | .report => rc.protoReport

/-- The three descriptor types (R77). -/
inductive DescriptorType
  | hid
  | report
  | physical
deriving DecidableEq, Repr

/-- The code of a descriptor type (R77). -/
def descriptorCode (rc : ReqCode) : DescriptorType → Byte
  | .hid => rc.descHid
  | .report => rc.descReport
  | .physical => rc.descPhysical

/-- The pseudo-instructions (R85); `ifn` is an interface number. -/
inductive Pseudo
  | getReport (ifn : Half) (t : ReportType) (id : Byte) (len : Half)
  | setReport (ifn : Half) (t : ReportType) (id : Byte) (data : Bytes)
  | getIdle (ifn : Half) (id : Byte)
  | setIdle (ifn : Half) (id rate : Byte)
  | setIdleAll (ifn : Half) (rate : Byte)
  | getProtocol (ifn : Half)
  | setProtocol (ifn : Half) (p : Protocol)
  | getDescriptor (ifn : Half) (d : DescriptorType) (len : Half)
deriving DecidableEq, Repr

/-- The setup packet and data stage a pseudo-instruction stands for (R85). The `len(B)` of SET_REPORT is taken modulo
2^16, for data that no `u16` counts: DESIGN CHOICE, notes/assumptions/21.md. -/
def Pseudo.expand (rc : ReqCode) : Pseudo → SetupPacket × Bytes
  | .getReport ifn t id len => (⟨rc.classIn, rc.getReport, halfOf id (typeCode rc t), ifn, len⟩, [])
  | .setReport ifn t id data =>
    (⟨rc.classOut, rc.setReport, halfOf id (typeCode rc t), ifn, BitVec.ofNat 16 data.length⟩, data)
  | .getIdle ifn id => (⟨rc.classIn, rc.getIdle, halfOf id 0, ifn, 1⟩, [])
  | .setIdle ifn id rate => (⟨rc.classOut, rc.setIdle, halfOf id rate, ifn, 0⟩, [])
  | .setIdleAll ifn rate => (⟨rc.classOut, rc.setIdle, halfOf 0 rate, ifn, 0⟩, [])
  | .getProtocol ifn => (⟨rc.classIn, rc.getProtocol, 0, ifn, 1⟩, [])
  | .setProtocol ifn p => (⟨rc.classOut, rc.setProtocol, (protocolCode rc p).setWidth 16, ifn, 0⟩, [])
  | .getDescriptor ifn d len => (⟨rc.stdIn, rc.getDescriptor, halfOf 0 (descriptorCode rc d), ifn, len⟩, [])

/-! ### Trace lines (R84) -/

/-- A hexadecimal digit. -/
def hexDigit (n : Nat) : Char := ['0', '1', '2', '3', '4', '5', '6', '7', '8', '9', 'A', 'B', 'C', 'D', 'E', 'F'].getD n '0'

/-- A byte as two hexadecimal digits. -/
def hexByte (b : Byte) : List Char := [hexDigit (b.toNat / 16), hexDigit (b.toNat % 16)]

/-- A 16-bit value as four hexadecimal digits. -/
def hexHalf (h : Half) : List Char := hexByte (hiByte h) ++ hexByte (loByte h)

/-- Bytes in hexadecimal, with a space between two. -/
def hexBytes : Bytes → List Char
  | [] => []
  | [b] => hexByte b
  | b :: rest => hexByte b ++ ' ' :: hexBytes rest

/-- A number in decimal. -/
def decimal (n : Nat) : List Char := Nat.toDigits 10 n

/-- The `usb setup` line of a packet and its data stage. -/
def setupLine (p : SetupPacket) (data : Bytes) : String :=
  "usb setup 0x" ++ String.ofList (hexByte p.bmRequestType) ++ " 0x" ++ String.ofList (hexByte p.bRequest) ++ " 0x" ++
    String.ofList (hexHalf p.wValue) ++ " " ++ String.ofList (decimal p.wIndex.toNat) ++ " " ++
    String.ofList (decimal p.wLength.toNat) ++
    (if data = [] then "" else " data=" ++ String.ofList (hexBytes data))

/-- The trace line of an operation; a request is written as the setup line of its packet. -/
def traceLine (rc : ReqCode) (i : Instr) : String :=
  match i with
  | .writeReport ix b => "app write_report ix=" ++ String.ofList (decimal ix) ++ " bytes=" ++ String.ofList (hexBytes b)
  | .readReport ix => "app read_report ix=" ++ String.ofList (decimal ix)
  | .getProtocolCall ix => "app get_protocol ix=" ++ String.ofList (decimal ix)
  | .poll accept => "usb poll accept=" ++ String.ofList (accept.map (fun a => if a then '1' else '0'))
  | .outData ix b => "usb out_data ix=" ++ String.ofList (decimal ix) ++ " bytes=" ++ String.ofList (hexBytes b)
  | .tick e => "usb tick " ++ String.ofList (decimal e.toNat)
  | .reset => "usb reset"
  | .setup p data => setupLine p data
  | .getReport _ _ _ _ => (i.packet? rc).elim "" (fun q => setupLine q.1 q.2)
  | .getIdle _ _ _ => (i.packet? rc).elim "" (fun q => setupLine q.1 q.2)
  | .getProtocol _ _ => (i.packet? rc).elim "" (fun q => setupLine q.1 q.2)
  | .setReport _ _ _ _ _ => (i.packet? rc).elim "" (fun q => setupLine q.1 q.2)
  | .setIdle _ _ _ => (i.packet? rc).elim "" (fun q => setupLine q.1 q.2)
  | .setProtocol _ _ => (i.packet? rc).elim "" (fun q => setupLine q.1 q.2)
  | .getDescriptorHid _ _ => (i.packet? rc).elim "" (fun q => setupLine q.1 q.2)
  | .getDescriptorReport _ _ => (i.packet? rc).elim "" (fun q => setupLine q.1 q.2)
  | .getDescriptorPhysical _ _ => (i.packet? rc).elim "" (fun q => setupLine q.1 q.2)

end Sys2Proof.Machine
end

