-- ==== Sys2Proof/Safety.lean ====
section
/-! DEFINITION. Safety.lean: what a safe run is, in the words the statements use: the state invariants of 10_state.md
(R22, R26, R31) with the shapes the configuration gives, the frame of an operation, and the access table R35. -/

namespace Sys2Proof.Machine

/-! ### Invariants -/

/-- One Report Buffer of type `t` (R24, R26): slots in canonical form, `order` without repeats and exactly the
pending IDs, and every pending report of the configured shape. -/
abbrev Buffer.Inv (ic : IfConfig) (t : ReportType) (b : Buffer) : Prop :=
  Assoc.Sorted b.slot ∧ b.order.Nodup ∧ (∀ id ∈ b.order, (b.get id).isSome = true) ∧
    (∀ p ∈ b.slot, p.1 ∈ b.order) ∧ ∀ p ∈ b.slot, validReport ic t p.2 = some p.1

/-- One Idle Timer (R31, R135): the countdown stays within the period and above zero while the timer is enabled; a
retransmission is armed only on an enabled timer that has a report; the last report has the configured shape. -/
abbrev Timer.Inv (ic : IfConfig) (id : ReportId) (t : Timer) : Prop :=
  t.countdown ≤ period t.idleRate ∧ (t.idleRate ≠ 0 → 1 ≤ t.countdown) ∧
    (t.due = true → t.idleRate ≠ 0 ∧ t.lastReport.isSome = true) ∧
    ∀ b ∈ t.lastReport, validReport ic .input b = some id

/-- One interface cell (R20, R22, R23): Report protocol unless boot-capable, the default rate's constant where the
register does not exist, the three buffers, and one timer per input report ID. -/
abbrev Cell.Inv (ic : IfConfig) (cell : Cell) : Prop :=
  (ic.bootCapable = false → cell.protocol = .report) ∧ (ic.usesIds = false → cell.idleDefault = ic.idleReset) ∧
    (∀ t ∈ ReportType.all, (cell.buf t).Inv ic t) ∧ cell.timers.map Prod.fst = ic.ids .input ∧
    ∀ p ∈ cell.timers, Timer.Inv ic p.1 p.2

/-- An interface's configuration with its cell. -/
abbrev PairInv (p : IfConfig × Cell) : Prop := Cell.Inv p.1 p.2

/-- The state: a device of the family, one cell per interface (R20), each cell as above. -/
abbrev State.Inv (s : State) : Prop :=
  s.config.Wf ∧ s.block.cells.length = s.config.ifs.length ∧
    ∀ p ∈ s.config.ifs.zip s.block.cells, PairInv p

/-- No fault has been raised, so operations have steps (R224). -/
abbrev State.Running (s : State) : Prop := s.block.fault = none

/-- A safe state: it meets the invariant, and no fault has been raised (R217: a claim takes "no fault" as a
premise). -/
abbrev State.Safe (s : State) : Prop := s.Inv ∧ s.Running

/-! ### Frames -/

/-- What the step emitted is `events` and `r`, and the operation touched neither the configuration nor the
operations still presented. -/
abbrev Emitted (s t : State) (events : List Event) (r : Result) : Prop :=
  t.config = s.config ∧ t.port = s.port ∧ t.trace = ⟨events, r⟩ :: s.trace

/-- Interface `i` has configuration `ic` and cell `cell`. -/
abbrev State.HasCell (s : State) (i : Nat) (ic : IfConfig) (cell : Cell) : Prop :=
  s.config.ifs[i]? = some ic ∧ s.block.cells[i]? = some cell

/-- Interface `i`'s cell becomes `cell`; every other cell and the fault register are as before. -/
abbrev OnlyCellBecomes (s t : State) (i : Nat) (cell : Cell) : Prop :=
  t.block.fault = s.block.fault ∧ t.block.cells.length = s.block.cells.length ∧
    t.block.cells[i]? = some cell ∧ ∀ j, j ≠ i → t.block.cells[j]? = s.block.cells[j]?

/-- A request addressed to `wIndex` reaches interface `i` (R78). -/
abbrev State.Routes (s : State) (wIndex : Half) (i : Nat) (ic : IfConfig) (cell : Cell) : Prop :=
  interfaceIndex s.config wIndex = some i ∧ s.HasCell i ic cell

/-- The step served every interface in turn: `events` and `Ok` were emitted, and there are as many cells and the same
fault register as before. -/
abbrev ServedAll (s t : State) (events : List Event) : Prop :=
  Emitted s t events .ok ∧ t.block.fault = s.block.fault ∧ t.block.cells.length = s.block.cells.length

/-- The step emitted `r` and no event, and changed nothing of the state tuple S (R53, R218). -/
abbrev LeavesBlock (s t : State) (r : Result) : Prop := Emitted s t [] r ∧ t.block = s.block

/-- The step raised the fault `r`: the fault register, and nothing else of S, changed (R53). -/
abbrev RaisesFault (s t : State) (r : FaultReason) : Prop :=
  Emitted s t [] (.fault r) ∧ t.block.cells = s.block.cells ∧ t.block.fault = some r

/-- The cells differ at most in their timers. -/
abbrev SameButTimers (cell cell' : Cell) : Prop :=
  cell'.protocol = cell.protocol ∧ cell'.idleDefault = cell.idleDefault ∧ ∀ t, cell'.buf t = cell.buf t

/-- The `wIndex` of a control request, none for the other operations (R74). -/
def requestIndex : Instr → Option Half
  | .getReport _ _ wIndex _ => some wIndex
  | .getIdle _ wIndex _ => some wIndex
  | .getProtocol wIndex _ => some wIndex
  | .setReport _ _ wIndex _ _ => some wIndex
  | .setIdle _ _ wIndex => some wIndex
  | .setProtocol _ wIndex => some wIndex
  | .getDescriptorHid wIndex _ => some wIndex
  | .getDescriptorReport wIndex _ => some wIndex
  | .getDescriptorPhysical wIndex _ => some wIndex
  | .writeReport _ _ => none
  | .readReport _ => none
  | .getProtocolCall _ => none
  | .poll _ => none
  | .outData _ _ => none
  | .tick _ => none
  | .reset => none
  | .setup _ _ => none

/-- The interface an event is about (R223). -/
def Event.iface : Event → Nat
  | .inTransmit i _ => i
  | .inBusy i => i
  | .idleExpired i _ => i
  | .setReport i _ _ _ => i

/-- The events of interface `i`, in order. -/
def eventsOf (i : Nat) (events : List Event) : List Event := events.filter (fun e => e.iface == i)

/-- The event is a transmission. -/
def Event.isTransmit : Event → Bool
  | .inTransmit _ _ => true
  | .inBusy _ => false
  | .idleExpired _ _ => false
  | .setReport _ _ _ _ => false

/-- Ticks of one timer one after the other: the timer after them, and how many expired. -/
def Timer.ticks : Timer → List Word → Timer × Nat
  | t, [] => (t, 0)
  | t, e :: es =>
    let here := t.tick e
    let rest := Timer.ticks here.1 es
    (rest.1, (if here.2 then 1 else 0) + rest.2)

/-! ### The access table (R35) -/

/-- The rows of the access table. -/
inductive Field
  | protocol
  | idleDefault
  | buf (t : ReportType)
  | idleRate
  | countdown
  | lastReport
  | due
  | fault
deriving DecidableEq, Repr

/-- The field of a cell holds what it held, for every ID (the fault register is no part of a cell). -/
def Field.Same (f : Field) (cell cell' : Cell) : Prop :=
  match f with
  | .protocol => cell'.protocol = cell.protocol
  | .idleDefault => cell'.idleDefault = cell.idleDefault
  | .buf t => cell'.buf t = cell.buf t
  | .idleRate => ∀ id, (cell'.timer id).idleRate = (cell.timer id).idleRate
  | .countdown => ∀ id, (cell'.timer id).countdown = (cell.timer id).countdown
  | .lastReport => ∀ id, (cell'.timer id).lastReport = (cell.timer id).lastReport
  | .due => ∀ id, (cell'.timer id).due = (cell.timer id).due
  | .fault => True

/-- The field holds what it held, on every interface. -/
def Field.Unchanged (f : Field) (b b' : Block) : Prop :=
  (f = .fault → b'.fault = b.fault) ∧ b'.cells.length = b.cells.length ∧
    ∀ (i : Nat) (cell cell' : Cell), b.cells[i]? = some cell → b'.cells[i]? = some cell' → f.Same cell cell'

/-- The W entries of the access table R35, column by column; `setup` is in no column of its own. -/
def columnWrites (consumes : Bool) : Instr → Field → Bool
  | .writeReport _ _, f => f == .buf .input || f == .fault
  | .readReport _, f => f == .buf .output || f == .fault
  | .getProtocolCall _, f => f == .fault
  | .getReport _ _ _ _, f => consumes && (f == .buf .input || f == .buf .output || f == .buf .feature)
  | .setReport _ _ _ _ _, f => f == .buf .output || f == .buf .feature
  | .getIdle _ _ _, _ => false
  | .setIdle _ _ _, f => f == .idleDefault || f == .idleRate || f == .countdown || f == .due
  | .getProtocol _ _, _ => false
  | .setProtocol _ _, f => f == .protocol
  | .getDescriptorHid _ _, _ => false
  | .getDescriptorReport _ _, _ => false
  | .getDescriptorPhysical _ _, _ => false
  | .poll _, f => f == .buf .input || f == .countdown || f == .lastReport || f == .due
  | .outData _ _, f => f == .buf .output || f == .fault
  | .tick _, f => f == .countdown || f == .due
  | .reset, f => f != .fault
  | .setup _ _, _ => false

/-- The fields an operation may write (R35); `setup` writes what the request it selects writes (R150). -/
def mayWrite (c : Config) (i : Instr) (f : Field) : Bool :=
  match i with
  | .setup p data =>
    match c.reqCode.select p.key with
    | none => false
    | some r => columnWrites c.getReportConsumes (requestInstr r p data) f
  | i => columnWrites c.getReportConsumes i f

end Sys2Proof.Machine
end

