-- ==== Sys2Proof/Certificates/Slice0/Obligations.lean ====
section
/-! DEFINITION. Certificates/Slice0/Obligations.lean: the statements for the provers. Rules R<n> are those of spec/. A
rule whose text is one of the spec's own decisions (D<n>) or derivations says so in the docstring. -/

open Sys2Proof Sys2Proof.Machine

/-! ### Encoding and decoding (30_encoding.md) -/

/-- Decoding the encoding of any well-formed operation gives it back, under every usable `REQ_CODE`. The layout of CALL
and EVENT operands is the model's choice (notes/assumptions/6.md); that of setup packets is R71, R73 and R74, which the
spec takes from general knowledge. Which `REQ_CODE`s there are, and which are usable, are the model's choices
(notes/assumptions/22.md and 23.md). -/
def Obligations.DecodeOfEncodeGivesTheOperationBack : Prop :=
  ∀ rc : ReqCode, rc.Wf → ∀ i : Instr, i.wellFormed = true → decode rc (encode rc i) = .ok i

/-- The SETUP decoder follows the request table: a packet whose key, under a row's mask, is the row's match value is
that row's request with the operands of R74, and a packet that matches no row is no HID request (R73, R79; D18, D20).
That bytes after the packet are data, ignored by a request that has none, is the model's choice
(notes/assumptions/16.md), and so is which `REQ_CODE`s there are and are usable (22.md and 23.md). -/
def Obligations.SetupDecodingFollowsTheRequestTable : Prop :=
  ∀ (rc : ReqCode) (p : SetupPacket) (data : Bytes), rc.Wf →
    (∀ row ∈ rc.table, p.key &&& row.mask = row.value →
      decode rc ⟨.setup, p.wire ++ data⟩ = .ok (requestInstr row.request p data)) ∧
    ((∀ row ∈ rc.table, p.key &&& row.mask ≠ row.value) →
      decode rc ⟨.setup, p.wire ++ data⟩ = .error .notHidRequest)

/-- Under the default codes a packet that selects a request is addressed to an interface, its type is class, or
standard for GET_DESCRIPTOR only, and its direction bit is that of a GET or a SET (R72, general knowledge G1). -/
def Obligations.SelectedRequestsAreInterfaceRequests : Prop :=
  ∀ (p : SetupPacket) (r : Request), ReqCode.hid111.select p.key = some r →
    requestRecipient p.bmRequestType = 1 ∧
    (r ∈ [.getDescriptorHid, .getDescriptorReport, .getDescriptorPhysical] → requestType p.bmRequestType = 0) ∧
    (r ∉ [.getDescriptorHid, .getDescriptorReport, .getDescriptorPhysical] → requestType p.bmRequestType = 1) ∧
    (requestDeviceToHost p.bmRequestType = true ↔ r ∉ [.setReport, .setIdle, .setProtocol])

/-- Setup packets written out from the spec's vectors (95_test_vectors.md Q10, Q22, Q29, Q36), and the events of P1
step 3 and P4 step 7, decode to the operations they stand for. The spec gives the events an op code and no bytes: those
are the model's layout (R81, D44; notes/assumptions/6.md). -/
def Obligations.DecoderReadsTheSpecsWords : Prop :=
  decode .hid111 ⟨.setup, [0x21, 0x09, 0x00, 0x02, 0x00, 0x00, 0x01, 0x00, 0x02]⟩ = .ok (.setReport 2 0 0 1 [0x02]) ∧
  decode .hid111 ⟨.setup, [0x21, 0x0A, 0x00, 0x19, 0x01, 0x00, 0x00, 0x00]⟩ = .ok (.setIdle 0x19 0 1) ∧
  decode .hid111 ⟨.setup, [0x21, 0x0B, 0x00, 0x00, 0x00, 0x00, 0x00, 0x00]⟩ = .ok (.setProtocol 0 0) ∧
  decode .hid111 ⟨.setup, [0x81, 0x06, 0x00, 0x22, 0x00, 0x00, 0xFF, 0x00]⟩ = .ok (.getDescriptorReport 0 0xFF) ∧
  decode .hid111 ⟨.event, [0x10, 0x01]⟩ = .ok (.poll [true]) ∧
  decode .hid111 ⟨.event, [0x13]⟩ = .ok .reset

/-- Under the default codes the report type codes are 1 Input, 2 Output, 3 Feature, and the protocol codes 0 Boot and
1 Report; every other value is reserved (R75, R76; general knowledge G3, G4). -/
def Obligations.FieldCodesAreTheHidValues : Prop :=
  (∀ tc : Byte, reportTypeOf .hid111 tc =
    if tc = 1 then some .input else if tc = 2 then some .output else if tc = 3 then some .feature else none) ∧
  (∀ w : Half, protocolOf .hid111 w = if w = 0 then some .boot else if w = 1 then some .report else none)

/-- Every pseudo-instruction expands to a setup packet that decodes to the request it names (R85, D44). The `wLength` of
SET_REPORT modulo 2^16 is the model's choice (notes/assumptions/21.md), and so is which `REQ_CODE`s there are and are
usable (22.md and 23.md). -/
def Obligations.PseudoInstructionsDecodeToTheirRequests : Prop :=
  ∀ rc : ReqCode, rc.Wf → ∀ x : Pseudo,
    decode rc ⟨.setup, (x.expand rc).1.wire ++ (x.expand rc).2⟩ = .ok (match x with
      | .getReport ifn t id len => .getReport (typeCode rc t) id ifn len
      | .setReport ifn t id data => .setReport (typeCode rc t) id ifn (BitVec.ofNat 16 data.length) data
      | .getIdle ifn id => .getIdle id ifn 1
      | .setIdle ifn id rate => .setIdle rate id ifn
      | .setIdleAll ifn rate => .setIdle rate 0 ifn
      | .getProtocol ifn => .getProtocol ifn 1
      | .setProtocol ifn p => .setProtocol ((protocolCode rc p).setWidth 16) ifn
      | .getDescriptor ifn .hid len => .getDescriptorHid ifn len
      | .getDescriptor ifn .report len => .getDescriptorReport ifn len
      | .getDescriptor ifn .physical len => .getDescriptorPhysical ifn len)

/-- A `wIndex` reaches the interface whose number, zero-extended to 16 bits, it is, and no other (R78, D28, D35). -/
def Obligations.InterfaceLookupIsExactMatch : Prop :=
  ∀ (c : Config) (w : Half) (i : Nat), c.Wf →
    (interfaceIndex c w = some i ↔ ∃ ic, c.ifs[i]? = some ic ∧ ic.ifNum.setWidth 16 = w)

/-! ### Steps -/

/-- A step performs the operation at the head of the port: when its bytes decode to `i`, the step is `exec i` in the
state without that operation; with nothing presented the step changes nothing (R52, R57; the port and the idle step are
the model's choices, notes/assumptions/3.md and 4.md). -/
def Obligations.StepPerformsThePresentedOperation : Prop :=
  ∀ s : State, s.config.Wf → s.Running →
    (∀ (o : Presented) (rest : List Presented) (i : Instr), s.port = o :: rest → decode s.config.reqCode o = .ok i →
      step s = exec i { s with port := rest }) ∧
    (s.port = [] → step s = .next s)

/-- A setup packet that selects no request is declined with NotHidRequest, whether it stands in the port in the SETUP
format or is the operand of `setup`; the state tuple is unchanged (R79, R82(a), R216; D18). That the port's packet is taken out and
the step answers a next state, with any bytes after the packet, is the model's choice (notes/assumptions/3.md, 15.md and
16.md). -/
def Obligations.UnmatchedPacketsAreDeclined : Prop :=
  ∀ (s : State) (p : SetupPacket) (data : Bytes), s.config.Wf → s.Running → s.config.reqCode.select p.key = none →
    (∃ t, exec (.setup p data) s = .next t ∧ LeavesBlock s t (.unhandled .notHidRequest)) ∧
    (∀ rest, s.port = ⟨.setup, p.wire ++ data⟩ :: rest →
      ∃ t, step s = .next t ∧ LeavesBlock { s with port := rest } t (.unhandled .notHidRequest))

/-- Once the fault register is set no operation of either agent has a step, reset included (R224, D27); the stop that
says so is the model's (notes/assumptions/8.md). -/
def Obligations.FaultedBlockHasNoStep : Prop :=
  ∀ (s : State) (r : FaultReason), s.block.fault = some r →
    (∀ i, exec i s = .fault (.sticky r)) ∧ (s.config.Wf → step s = .fault (.sticky r))

/-- A configuration that is no device of the family is refused at construction, and no step runs under it (R11, R17,
U3; notes/assumptions/10.md). -/
def Obligations.IllFormedConfigurationIsRefused : Prop :=
  (∀ c : Config, State.construct? c = if c.Wf then some (State.powerOn c) else none) ∧
    ∀ s : State, ¬ s.config.Wf → step s = .refused .illFormedConfig

/-- In a running block every operation completes in one step that keeps the configuration and the operations still
presented and emits exactly one output; the one exception is out_data on an interface without an OUT endpoint, which has
no step (R52, R62, R150, R210, R194). -/
def Obligations.RunningBlockPerformsEveryOperation : Prop :=
  ∀ (s : State) (i : Instr), s.Running →
    (∃ t o, exec i s = .next t ∧ t.config = s.config ∧ t.port = s.port ∧ t.trace = o :: s.trace ∧
      t.block.cells.length = s.block.cells.length) ∨
    (∃ ix b ic, i = .outData ix b ∧ s.config.ifs[ix]? = some ic ∧ ic.hasOutEp = false ∧
      exec i s = .fault .noOutEndpoint)

/-! ### Report Buffer and application operations (40_report_buffer.md) -/

/-- BufWrite stores the report under its ID, replaces and forgets any earlier report of that ID, makes the ID the newest,
and touches no other slot (R100). -/
def Obligations.BufWriteReplacesAndMakesNewest : Prop :=
  ∀ (b : Buffer) (id : ReportId) (r : Bytes),
    (b.write id r).get id = some r ∧ (∀ j, j ≠ id → (b.write id r).get j = b.get j) ∧
    (b.write id r).order = id :: b.order.filter (· ≠ id) ∧ ∀ r', (b.write id r').write id r = b.write id r

/-- ValidReport accepts exactly the byte strings of the configured size of their ID, the leading byte being the ID on an
interface with IDs and the ID being 0 on one without (R105; D43). -/
def Obligations.ValidReportChecksIdAndLength : Prop :=
  ∀ (ic : IfConfig) (t : ReportType) (b : Bytes) (id : ReportId),
    validReport ic t b = some id ↔
      ((ic.usesIds = true ∧ ∃ rest, b = id :: rest) ∨ (ic.usesIds = false ∧ id = 0)) ∧
        id ∈ ic.ids t ∧ ic.size? t id = some b.length

/-- write_report of a valid report answers Ok, stores it in the input buffer as the newest pending report, and leaves
the other slots, the other buffers, the Idle Timers, the protocol and every other interface as they were (R106; D23). -/
def Obligations.WriteReportStoresTheNewestReport : Prop :=
  ∀ (s : State) (ix : Nat) (ic : IfConfig) (cell : Cell) (b : Bytes) (id : ReportId), s.Running →
    s.HasCell ix ic cell → validReport ic .input b = some id →
    ∃ t cell', exec (.writeReport ix b) s = .next t ∧ Emitted s t [] .ok ∧ OnlyCellBecomes s t ix cell' ∧
      cell'.setBuf .input (cell.buf .input) = cell ∧
      (cell'.buf .input).get id = some b ∧ (∀ j, j ≠ id → (cell'.buf .input).get j = (cell.buf .input).get j) ∧
      (cell'.buf .input).order = id :: (cell.buf .input).order.filter (· ≠ id)

/-- write_report of a report of the wrong size or ID sets the fault register to ConfigError and changes nothing else
(R106, R53, R217; D27). -/
def Obligations.WriteReportOfWrongShapeFaults : Prop :=
  ∀ (s : State) (ix : Nat) (ic : IfConfig) (cell : Cell) (b : Bytes), s.Running → s.HasCell ix ic cell →
    validReport ic .input b = none → ∃ t, exec (.writeReport ix b) s = .next t ∧ RaisesFault s t .configError

/-- An application operation or out_data whose index names no interface sets the fault register to NoSuchInterface and
changes nothing else, whatever its other operands (R106, R107, R108, R194, R219; D34; for out_data
notes/assumptions/9.md). -/
def Obligations.BadInterfaceIndexFaults : Prop :=
  ∀ (s : State) (ix : Nat) (b : Bytes), s.Running → s.config.ifs.length ≤ ix →
    ∀ i ∈ [Instr.writeReport ix b, .readReport ix, .getProtocolCall ix, .outData ix b],
      ∃ t, exec i s = .next t ∧ RaisesFault s t .noSuchInterface

/-- read_report (R107), CALL op code 0x02: a bad index faults; with no output report pending, always so on an interface without output IDs,
it answers WouldBlock and changes nothing; otherwise it returns the newest output report, removes it, leaves the other
reports pending, and changes nothing else. The bad index is D34, the newest of several IDs D40, the op code D44, and its
place in the model's bytes notes/assumptions/6.md. -/
def Obligations.ReadReportTakesTheNewestOutputReport : Prop :=
  ∀ (s : State) (ix : Nat), s.Running →
    (encode s.config.reqCode (.readReport ix)).format = .call ∧
    (encode s.config.reqCode (.readReport ix)).bytes.head? = some 0x02 ∧
    (s.config.ifs.length ≤ ix → ∃ t, exec (.readReport ix) s = .next t ∧ RaisesFault s t .noSuchInterface) ∧
    ∀ ic cell, s.HasCell ix ic cell →
      ((cell.buf .output).order = [] → ∃ t, exec (.readReport ix) s = .next t ∧ LeavesBlock s t .wouldBlock) ∧
      (s.Inv → ic.ids .output = [] → ∃ t, exec (.readReport ix) s = .next t ∧ LeavesBlock s t .wouldBlock) ∧
      ∀ id ids b, (cell.buf .output).order = id :: ids → (cell.buf .output).get id = some b →
        ∃ t cell', exec (.readReport ix) s = .next t ∧ Emitted s t [] (.report b) ∧ OnlyCellBecomes s t ix cell' ∧
          cell'.setBuf .output (cell.buf .output) = cell ∧
          (cell'.buf .output).get id = none ∧
          (∀ j, j ≠ id → (cell'.buf .output).get j = (cell.buf .output).get j) ∧
          (cell'.buf .output).order = ids

/-- get_protocol (R108), CALL op code 0x03: a bad index faults; otherwise it returns the interface's protocol and changes nothing; on an
interface that is not boot-capable that is Report. The bad index is D34, the op code D44, and its place in the model's
bytes notes/assumptions/6.md. -/
def Obligations.GetProtocolCallReturnsTheProtocol : Prop :=
  ∀ (s : State) (ix : Nat), s.Running →
    (encode s.config.reqCode (.getProtocolCall ix)).format = .call ∧
    (encode s.config.reqCode (.getProtocolCall ix)).bytes.head? = some 0x03 ∧
    (s.config.ifs.length ≤ ix → ∃ t, exec (.getProtocolCall ix) s = .next t ∧ RaisesFault s t .noSuchInterface) ∧
    ∀ ic cell, s.HasCell ix ic cell →
      (∃ t, exec (.getProtocolCall ix) s = .next t ∧ LeavesBlock s t (.protocol cell.protocol)) ∧
      (s.Inv → ic.bootCapable = false →
        ∃ t, exec (.getProtocolCall ix) s = .next t ∧ LeavesBlock s t (.protocol .report))

/-- Latest wins: after two writes of reports of one ID the state tuple is the one a single write of the second report
gives, so nothing of the first is left, in the input buffer and in the output buffer (R109, which the spec derives from
R100 and R101). -/
def Obligations.LatestReportWins : Prop :=
  ∀ (s t₁ t₂ u : State) (ix : Nat) (ic : IfConfig) (cell : Cell) (b₁ b₂ : Bytes) (id : ReportId), s.HasCell ix ic cell →
    (validReport ic .input b₁ = some id → validReport ic .input b₂ = some id →
      exec (.writeReport ix b₁) s = .next t₁ → exec (.writeReport ix b₂) t₁ = .next t₂ →
      exec (.writeReport ix b₂) s = .next u → t₂.block = u.block) ∧
    (validReport ic .output b₁ = some id → validReport ic .output b₂ = some id →
      exec (.outData ix b₁) s = .next t₁ → exec (.outData ix b₂) t₁ = .next t₂ →
      exec (.outData ix b₂) s = .next u → t₂.block = u.block)

/-! ### Idle Timer (41_idle_timer.md) -/

/-- The period is four times the rate, at most 1020 ms, and never overflows (R130). -/
def Obligations.PeriodIsFourTimesTheRate : Prop :=
  ∀ rate : Byte, (period rate).toNat = rate.toNat * 4 ∧ (period rate).toNat ≤ 1020

/-- One timer's tick, in numbers: a disabled timer ignores time; an enabled one whose countdown is used up expires,
reloads the full period, discards the surplus and arms a retransmission if it has a report; otherwise the countdown
drops by the elapsed time (R131; D6, D7). -/
def Obligations.TimerTickFollowsItsRule : Prop :=
  ∀ (t : Timer) (e : Word),
    (t.idleRate = 0 → t.tick e = (t, false)) ∧
    (t.idleRate ≠ 0 → t.countdown.toNat ≤ e.toNat →
      t.tick e = ({ t with countdown := period t.idleRate, due := t.due || t.lastReport.isSome }, true)) ∧
    (t.idleRate ≠ 0 → e.toNat < t.countdown.toNat →
      t.tick e = ({ t with countdown := BitVec.ofNat 32 (t.countdown.toNat - e.toNat) }, false))

/-- tick advances the timer of every input report ID of every interface, emits IdleExpired for those that expire, IDs
ascending, and changes nothing else (R132; D9, D37). -/
def Obligations.TickAdvancesEveryTimer : Prop :=
  ∀ (s : State) (e : Word), s.Running → s.config.Wf →
    ∃ t events, exec (.tick e) s = .next t ∧ ServedAll s t events ∧
      events.Pairwise (fun x y => x.iface ≤ y.iface) ∧
      ∀ ix ic cell, s.HasCell ix ic cell →
        ∃ cell', t.block.cells[ix]? = some cell' ∧ SameButTimers cell cell' ∧
          (∀ id ∈ ic.ids .input, cell'.timer id = ((cell.timer id).tick e).1) ∧
          (∀ id, id ∉ ic.ids .input → cell'.timer id = cell.timer id) ∧
          eventsOf ix events = ((ic.ids .input).filter (fun id => ((cell.timer id).tick e).2)).map (.idleExpired ix)

/-- Exactly one expiry per period: from a fresh window of an enabled timer, ticks that sum to the period expire once and
leave a full countdown; as long as they sum to less, nothing has expired and the countdown is what is left (R136, which
the spec derives from R131 and R132). -/
def Obligations.OneExpiryPerPeriod : Prop :=
  ∀ (t : Timer) (es : List Word), t.idleRate ≠ 0 → t.countdown = period t.idleRate →
    ((es.map BitVec.toNat).sum = t.idleRate.toNat * 4 →
      (t.ticks es).2 = 1 ∧ (t.ticks es).1.countdown = period t.idleRate) ∧
    ((es.map BitVec.toNat).sum < t.idleRate.toNat * 4 →
      (t.ticks es).2 = 0 ∧ (t.ticks es).1.countdown.toNat = t.idleRate.toNat * 4 - (es.map BitVec.toNat).sum)

/-- While a timer's rate is 0 no tick expires it or changes it (R137, which the spec derives from R131 and R134). -/
def Obligations.RateZeroNeverExpires : Prop :=
  ∀ (s t : State) (e : Word) (o : Output) (ix : Nat) (ic : IfConfig) (cell cell' : Cell) (id : ReportId),
    exec (.tick e) s = .next t → t.trace = o :: s.trace → s.HasCell ix ic cell → t.block.cells[ix]? = some cell' →
    (cell.timer id).idleRate = 0 → Event.idleExpired ix id ∉ o.events ∧ cell'.timer id = cell.timer id

/-! ### Control requests (42_control_requests.md) -/

/-- A request whose `wIndex` is no interface number is declined with NoSuchInterfaceNumber before any of its fields is
looked at, and changes nothing (R78, R82(b), R219; D18). -/
def Obligations.UnknownInterfaceNumberIsDeclined : Prop :=
  ∀ (s : State) (i : Instr) (w : Half), s.Running → requestIndex i = some w → interfaceIndex s.config w = none →
    ∃ t, exec i s = .next t ∧ LeavesBlock s t (.unhandled .noSuchInterfaceNumber)

/-- GET_REPORT of a known type and ID answers the pending report, or the zeroed report of the correct size, cut to
wLength; it removes the pending report exactly when GET_REPORT_CONSUMES, and changes nothing else (R151, R152, R153;
D12, D13, D19). The type codes are those of any `REQ_CODE` (R15, D20) where R152 writes 1, 2 and 3: the model's choice,
notes/assumptions/18.md. -/
def Obligations.GetReportAnswersPendingOrZeroReport : Prop :=
  ∀ (s : State) (w wLength : Half) (tc id : Byte) (ix : Nat) (ic : IfConfig) (cell : Cell) (ty : ReportType) (n : Nat),
    s.Running → s.Routes w ix ic cell → ic.Wf → reportTypeOf s.config.reqCode tc = some ty →
    ic.size? ty id = some n →
    ∃ t cell' v, exec (.getReport tc id w wLength) s = .next t ∧ Emitted s t [] (.data (v.take wLength.toNat)) ∧
      (∀ b, (cell.buf ty).get id = some b → v = b) ∧
      ((cell.buf ty).get id = none →
        v = if ic.usesIds then id :: List.replicate (n - 1) 0 else List.replicate n 0) ∧
      OnlyCellBecomes s t ix cell' ∧
      (s.config.getReportConsumes = false → cell' = cell) ∧
      (s.config.getReportConsumes = true →
        cell'.setBuf ty (cell.buf ty) = cell ∧ (cell'.buf ty).get id = none ∧
          (∀ j, j ≠ id → (cell'.buf ty).get j = (cell.buf ty).get j) ∧
          (cell'.buf ty).order = (cell.buf ty).order.filter (· ≠ id))

/-- GET_REPORT stalls, with nothing changed, on a reserved type code (MalformedRequest), then on an ID the interface does
not define for the type (UnsupportedReportId) (R152, R213, R219; D12, D18). The type codes are those of any `REQ_CODE`
(R15, D20) where R152 writes 1, 2 and 3: the model's choice, notes/assumptions/18.md. -/
def Obligations.GetReportStallsOnUnknownReports : Prop :=
  ∀ (s : State) (w wLength : Half) (tc id : Byte) (ix : Nat) (ic : IfConfig) (cell : Cell), s.Running →
    s.Routes w ix ic cell →
    (reportTypeOf s.config.reqCode tc = none →
      ∃ t, exec (.getReport tc id w wLength) s = .next t ∧ LeavesBlock s t (.stall .malformedRequest)) ∧
    ∀ ty, reportTypeOf s.config.reqCode tc = some ty → id ∉ ic.ids ty →
      ∃ t, exec (.getReport tc id w wLength) s = .next t ∧ LeavesBlock s t (.stall .unsupportedReportId)

/-- SET_REPORT of a valid output or feature report answers Ack, emits the notification with the bytes stored, stores the
report as the newest of its buffer, and changes nothing else; `wLength` is not looked at (R154, R155, R83; D14, D19,
D30). The type codes are those of any `REQ_CODE` (R15, D20) where R154 writes 1, 2 and 3: the model's choice,
notes/assumptions/18.md. -/
def Obligations.SetReportStoresAndNotifies : Prop :=
  ∀ (s : State) (w wLength : Half) (tc id : Byte) (data : Bytes) (ix : Nat) (ic : IfConfig) (cell : Cell)
    (ty : ReportType), s.Running → s.Routes w ix ic cell → reportTypeOf s.config.reqCode tc = some ty → ty ≠ .input →
    validReport ic ty data = some id →
    ∃ t cell', exec (.setReport tc id w wLength data) s = .next t ∧
      Emitted s t [.setReport ix ty id data] .ack ∧ OnlyCellBecomes s t ix cell' ∧
      cell'.setBuf ty (cell.buf ty) = cell ∧ (cell'.buf ty).get id = some data ∧
      (∀ j, j ≠ id → (cell'.buf ty).get j = (cell.buf ty).get j) ∧
      (cell'.buf ty).order = id :: (cell.buf ty).order.filter (· ≠ id)

/-- SET_REPORT stalls in this order, with nothing changed: a reserved type code and type Input (MalformedRequest), an
unknown ID (UnsupportedReportId), a data stage of the wrong shape (MalformedRequest) (R154, R219; D14, D18). The type
codes are those of any `REQ_CODE` (R15, D20) where R154 writes 1, 2 and 3: the model's choice,
notes/assumptions/18.md. -/
def Obligations.SetReportStallsInOrder : Prop :=
  ∀ (s : State) (w wLength : Half) (tc id : Byte) (data : Bytes) (ix : Nat) (ic : IfConfig) (cell : Cell), s.Running →
    s.Routes w ix ic cell →
    (reportTypeOf s.config.reqCode tc = none ∨ reportTypeOf s.config.reqCode tc = some .input →
      ∃ t, exec (.setReport tc id w wLength data) s = .next t ∧ LeavesBlock s t (.stall .malformedRequest)) ∧
    ∀ ty, reportTypeOf s.config.reqCode tc = some ty → ty ≠ .input →
      (id ∉ ic.ids ty →
        ∃ t, exec (.setReport tc id w wLength data) s = .next t ∧ LeavesBlock s t (.stall .unsupportedReportId)) ∧
      (id ∈ ic.ids ty → validReport ic ty data ≠ some id →
        ∃ t, exec (.setReport tc id w wLength data) s = .next t ∧ LeavesBlock s t (.stall .malformedRequest))

/-- GET_IDLE answers the interface default for ID 0 with report IDs, the only timer's rate for ID 0 without, the rate of
an input report's ID, and stalls on any other ID; it changes nothing (R156; D17, D36). -/
def Obligations.GetIdleAnswersTheRate : Prop :=
  ∀ (s : State) (w wLength : Half) (id : Byte) (ix : Nat) (ic : IfConfig) (cell : Cell), s.Running →
    s.Routes w ix ic cell →
    ∃ t r, exec (.getIdle id w wLength) s = .next t ∧ LeavesBlock s t r ∧
      (id = 0 → ic.usesIds = true → r = .data ([cell.idleDefault].take wLength.toNat)) ∧
      (id = 0 → ic.usesIds = false → r = .data ([(cell.timer 0).idleRate].take wLength.toNat)) ∧
      (id ≠ 0 → ic.usesIds = true → id ∈ ic.ids .input → r = .data ([(cell.timer id).idleRate].take wLength.toNat)) ∧
      (id ≠ 0 → (ic.usesIds = false ∨ id ∉ ic.ids .input) → r = .stall .unsupportedReportId)

/-- SET_IDLE gives the addressed timers, all of them for ID 0, the new rate and a full countdown, keeps their last
report, drops an armed retransmission exactly when the rate becomes 0, sets the interface default for ID 0 with report
IDs, answers Ack, and changes nothing else (R157, R134; D8, D17). -/
def Obligations.SetIdleSetsTheAddressedRates : Prop :=
  ∀ (s : State) (w : Half) (rate id : Byte) (ix : Nat) (ic : IfConfig) (cell : Cell), s.Running →
    s.Routes w ix ic cell → (id = 0 ∨ ic.usesIds = true ∧ id ∈ ic.ids .input) →
    ∃ t cell', exec (.setIdle rate id w) s = .next t ∧ Emitted s t [] .ack ∧ OnlyCellBecomes s t ix cell' ∧
      cell'.protocol = cell.protocol ∧ (∀ ty, cell'.buf ty = cell.buf ty) ∧
      cell'.idleDefault = (if id = 0 ∧ ic.usesIds = true then rate else cell.idleDefault) ∧
      ∀ j, (j ∈ ic.ids .input ∧ (id = 0 ∨ j = id) →
          (cell'.timer j).idleRate = rate ∧ (cell'.timer j).countdown.toNat = rate.toNat * 4 ∧
          (cell'.timer j).lastReport = (cell.timer j).lastReport ∧
          (cell'.timer j).due = (if rate = 0 then false else (cell.timer j).due)) ∧
        (¬ (j ∈ ic.ids .input ∧ (id = 0 ∨ j = id)) → cell'.timer j = cell.timer j)

/-- SET_IDLE of an ID other than 0 that is no input report ID of an interface with IDs stalls and changes nothing (R157,
R213; D36). -/
def Obligations.SetIdleStallsOnUnknownId : Prop :=
  ∀ (s : State) (w : Half) (rate id : Byte) (ix : Nat) (ic : IfConfig) (cell : Cell), s.Running →
    s.Routes w ix ic cell → id ≠ 0 → (ic.usesIds = false ∨ id ∉ ic.ids .input) →
    ∃ t, exec (.setIdle rate id w) s = .next t ∧ LeavesBlock s t (.stall .unsupportedReportId)

/-- GET_PROTOCOL answers one byte, the code of the current protocol, on every interface, cut to wLength, and changes
nothing (R158, R76, R151; D15, D19). The code is that of any `REQ_CODE` (R15, D20) where R158 writes 0x00 and 0x01: the
model's choice, notes/assumptions/18.md. -/
def Obligations.GetProtocolAnswersTheCode : Prop :=
  ∀ (s : State) (w wLength : Half) (ix : Nat) (ic : IfConfig) (cell : Cell), s.Running → s.Routes w ix ic cell →
    ∃ t, exec (.getProtocol w wLength) s = .next t ∧
      LeavesBlock s t (.data (List.take wLength.toNat
        [if cell.protocol = .boot then s.config.reqCode.protoBoot else s.config.reqCode.protoReport]))

/-- SET_PROTOCOL: on an interface that is not boot-capable it stalls with InvalidProtocolRequest whatever the value; on a
boot-capable one it sets the protocol of a legal code and answers Ack, and stalls with MalformedRequest on a reserved
one; buffers, timers and every other interface are unchanged (R159, R214, R219; D16, D18, D26). The codes are those of
any `REQ_CODE` (R15, D20) where R159 writes 0 and 1: the model's choice, notes/assumptions/18.md. -/
def Obligations.SetProtocolOnlyOnBootInterfaces : Prop :=
  ∀ (s : State) (w wValue : Half) (ix : Nat) (ic : IfConfig) (cell : Cell), s.Running → s.Routes w ix ic cell →
    (ic.bootCapable = false →
      ∃ t, exec (.setProtocol wValue w) s = .next t ∧ LeavesBlock s t (.stall .invalidProtocolRequest)) ∧
    (ic.bootCapable = true →
      (∀ p, protocolOf s.config.reqCode wValue = some p →
        ∃ t, exec (.setProtocol wValue w) s = .next t ∧ Emitted s t [] .ack ∧
          OnlyCellBecomes s t ix { cell with protocol := p }) ∧
      (protocolOf s.config.reqCode wValue = none →
        ∃ t, exec (.setProtocol wValue w) s = .next t ∧ LeavesBlock s t (.stall .malformedRequest)))

/-- GET_DESCRIPTOR to an interface answers the configured HID or Report descriptor bytes cut to wLength, and stalls with
UnsupportedRequest for Physical; nothing changes (R160, R151; D19, D29). -/
def Obligations.DescriptorRequestsAnswerTheConfiguredBytes : Prop :=
  ∀ (s : State) (w wLength : Half) (ix : Nat) (ic : IfConfig) (cell : Cell), s.Running → s.Routes w ix ic cell →
    (∃ t, exec (.getDescriptorHid w wLength) s = .next t ∧
      LeavesBlock s t (.data (ic.hidDesc.take wLength.toNat))) ∧
    (∃ t, exec (.getDescriptorReport w wLength) s = .next t ∧
      LeavesBlock s t (.data (ic.reportDesc.take wLength.toNat))) ∧
    ∃ t, exec (.getDescriptorPhysical w wLength) s = .next t ∧ LeavesBlock s t (.stall .unsupportedRequest)

/-- setup completes, and does what the request its packet selects does, with the operands of R74 (R150, R79; D18, D19);
what each request does is stated of the request. That a request without data ignores `data` is the model's choice
(notes/assumptions/16.md). -/
def Obligations.SetupRunsTheSelectedRequest : Prop :=
  ∀ (s : State) (p : SetupPacket) (data : Bytes) (r : Request), s.Running → s.config.reqCode.select p.key = some r →
    ∃ t events res, exec (.setup p data) s = .next t ∧ exec (requestInstr r p data) s = .next t ∧
      Emitted s t events res

/-- No control request faults, blocks or is dropped: in a running block setup, and every request by itself, completes
with Ack, Data, a stall or an Unhandled verdict, and the block is still running (R150, R217; D19). -/
def Obligations.ControlRequestsNeverFault : Prop :=
  ∀ (s : State) (i : Instr), s.Running → (i.format = .setup ∨ ∃ p data, i = .setup p data) →
    ∃ t events r, exec i s = .next t ∧ Emitted s t events r ∧ t.Running ∧
      (r = .ack ∨ (∃ v, r = .data v) ∨ (∃ q, r = .stall q) ∨ ∃ q, r = .unhandled q)

/-- Isolation: a request routed to an interface gives the same output and the same new cell whatever the other cells,
the port and the trace hold, and leaves every other cell as it was (R161, which the spec derives from R78 and R152 to
R160). -/
def Obligations.RequestsAreIsolatedToTheirInterface : Prop :=
  ∀ (s₁ s₂ t₁ : State) (i : Instr) (w : Half) (ix : Nat) (ic : IfConfig) (cell : Cell), s₁.config = s₂.config →
    s₁.Running → s₂.Running → requestIndex i = some w → s₁.Routes w ix ic cell → s₂.Routes w ix ic cell →
    exec i s₁ = .next t₁ →
    ∃ t₂ o cell', exec i s₂ = .next t₂ ∧ t₁.trace = o :: s₁.trace ∧ t₂.trace = o :: s₂.trace ∧
      OnlyCellBecomes s₁ t₁ ix cell' ∧ OnlyCellBecomes s₂ t₂ ix cell'

/-! ### Interrupt endpoint events (43_endpoint_events.md) -/

/-- poll, endpoint accepting, a fresh report pending: the newest pending report goes out whole, leaves the buffer, and
restarts the idle window of its own timer only; nothing else of the interface changes (R190, R191, R193, R133; D7, D10,
D40). -/
def Obligations.PollTransmitsTheNewestPendingReport : Prop :=
  ∀ (s : State) (accept : List Bool) (ix : Nat) (ic : IfConfig) (cell : Cell) (id : ReportId) (ids : List ReportId)
    (b : Bytes), s.Running → s.HasCell ix ic cell → (cell.buf .input).order = id :: ids →
    (cell.buf .input).get id = some b → accepted accept ix = true →
    ∃ t events cell', exec (.poll accept) s = .next t ∧ ServedAll s t events ∧
      eventsOf ix events = [.inTransmit ix b] ∧ t.block.cells[ix]? = some cell' ∧
      (cell'.buf .input).order = ids ∧ (cell'.buf .input).get id = none ∧
      (∀ j, j ≠ id → (cell'.buf .input).get j = (cell.buf .input).get j) ∧
      cell'.timer id = ⟨(cell.timer id).idleRate, period (cell.timer id).idleRate, some b, false⟩ ∧
      (∀ j, j ≠ id → cell'.timer j = cell.timer j) ∧
      cell'.buf .output = cell.buf .output ∧ cell'.buf .feature = cell.buf .feature ∧
      cell'.protocol = cell.protocol ∧ cell'.idleDefault = cell.idleDefault

/-- poll, endpoint accepting, nothing pending, retransmissions armed: exactly the last report of the lowest due ID goes
out again and restarts that timer's window; nothing else of the interface changes (R190, R191, R193, R133; D7, D10). -/
def Obligations.PollRetransmitsTheLowestDueReport : Prop :=
  ∀ (s : State) (accept : List Bool) (ix : Nat) (ic : IfConfig) (cell : Cell) (id : ReportId) (b : Bytes), s.Running →
    s.config.Wf → s.HasCell ix ic cell → (cell.buf .input).order = [] → id ∈ ic.ids .input →
    (cell.timer id).due = true → (∀ j ∈ ic.ids .input, j < id → (cell.timer j).due = false) →
    (cell.timer id).lastReport = some b → accepted accept ix = true →
    ∃ t events cell', exec (.poll accept) s = .next t ∧ ServedAll s t events ∧
      eventsOf ix events = [.inTransmit ix b] ∧ t.block.cells[ix]? = some cell' ∧ SameButTimers cell cell' ∧
      cell'.timer id = ⟨(cell.timer id).idleRate, period (cell.timer id).idleRate, some b, false⟩ ∧
      ∀ j, j ≠ id → cell'.timer j = cell.timer j

/-- poll on an interface whose endpoint does not accept, or that has nothing pending and nothing due, leaves its cell as
it was; it emits InBusy in the first case if there was something to send, and otherwise nothing (R190, R191, R195(b),
R212; D10, D11). A draw too short for an interface is no acceptance there: notes/assumptions/13.md. -/
def Obligations.PollWithoutTransmissionLeavesTheCell : Prop :=
  ∀ (s : State) (accept : List Bool) (ix : Nat) (ic : IfConfig) (cell : Cell), s.Inv → s.Running →
    s.HasCell ix ic cell →
    ∃ t events, exec (.poll accept) s = .next t ∧ ServedAll s t events ∧
      ((cell.buf .input).order = [] → (∀ id ∈ ic.ids .input, (cell.timer id).due = false) →
        t.block.cells[ix]? = some cell ∧ eventsOf ix events = []) ∧
      (accepted accept ix = false →
        t.block.cells[ix]? = some cell ∧
        ((cell.buf .input).order ≠ [] ∨ (∃ id ∈ ic.ids .input, (cell.timer id).due = true) →
          eventsOf ix events = [.inBusy ix]))

/-- Within one poll interfaces are served in registration order, each from its own cell and its own draw: the events
come in rising interface order, at most one per interface, and the new cell and the events of an interface depend on
nothing but its configuration, its cell and its draw (R59, R190, R195(a)). A draw too short for an interface is no
acceptance there: notes/assumptions/13.md. -/
def Obligations.PollServesInterfacesInOrderAndAlone : Prop :=
  (∀ (s t : State) (accept : List Bool), exec (.poll accept) s = .next t →
    ∃ events, ServedAll s t events ∧ events.Pairwise (fun x y => x.iface < y.iface)) ∧
  ∀ (s₁ s₂ t₁ t₂ : State) (a₁ a₂ : List Bool) (e₁ e₂ : List Event) (ix : Nat) (ic : IfConfig) (cell : Cell),
    s₁.HasCell ix ic cell → s₂.HasCell ix ic cell → accepted a₁ ix = accepted a₂ ix →
    exec (.poll a₁) s₁ = .next t₁ → exec (.poll a₂) s₂ = .next t₂ → ServedAll s₁ t₁ e₁ → ServedAll s₂ t₂ e₂ →
    t₁.block.cells[ix]? = t₂.block.cells[ix]? ∧ eventsOf ix e₁ = eventsOf ix e₂

/-- With idle reporting disabled and nothing pending, a report written goes out at the next accepted poll, once: the
poll after it transmits nothing on that interface (R195(c), R195(d), derived by the spec; the source's first end-to-end
property, 95_test_vectors.md S7). -/
def Obligations.WrittenReportGoesOutOnce : Prop :=
  ∀ (s : State) (a₁ a₂ : List Bool) (ix : Nat) (ic : IfConfig) (cell : Cell) (b : Bytes) (id : ReportId), s.Inv →
    s.Running → s.HasCell ix ic cell → (cell.buf .input).order = [] →
    (∀ j ∈ ic.ids .input, (cell.timer j).idleRate = 0) → validReport ic .input b = some id →
    accepted a₁ ix = true →
    ∃ t₁ t₂ t₃ e₂ e₃ cell₂, exec (.writeReport ix b) s = .next t₁ ∧ exec (.poll a₁) t₁ = .next t₂ ∧
      exec (.poll a₂) t₂ = .next t₃ ∧ ServedAll t₁ t₂ e₂ ∧ ServedAll t₂ t₃ e₃ ∧
      eventsOf ix e₂ = [.inTransmit ix b] ∧ eventsOf ix e₃ = [] ∧
      t₂.block.cells[ix]? = some cell₂ ∧ (cell₂.buf .input).order = []

/-- out_data of a valid report answers Ok, emits the notification and stores the report as the newest of the output
buffer; a packet of the wrong shape is dropped; nothing else changes (R194, R155; D22, D30, D38). -/
def Obligations.OutDataStoresOrDrops : Prop :=
  ∀ (s : State) (ix : Nat) (ic : IfConfig) (cell : Cell) (b : Bytes), s.Running → s.HasCell ix ic cell →
    ic.hasOutEp = true →
    (∀ id, validReport ic .output b = some id →
      ∃ t cell', exec (.outData ix b) s = .next t ∧ Emitted s t [.setReport ix .output id b] .ok ∧
        OnlyCellBecomes s t ix cell' ∧ cell'.setBuf .output (cell.buf .output) = cell ∧
        (cell'.buf .output).get id = some b ∧
        (∀ j, j ≠ id → (cell'.buf .output).get j = (cell.buf .output).get j) ∧
        (cell'.buf .output).order = id :: (cell.buf .output).order.filter (· ≠ id)) ∧
    (validReport ic .output b = none →
      ∃ t, exec (.outData ix b) s = .next t ∧ LeavesBlock s t (.dropped .malformedRequest))

/-- out_data on an interface without an OUT endpoint has no step (R194's precondition; notes/assumptions/9.md). -/
def Obligations.OutDataWithoutEndpointHasNoStep : Prop :=
  ∀ (s : State) (ix : Nat) (ic : IfConfig) (b : Bytes), s.Running → s.config.ifs[ix]? = some ic → ic.hasOutEp = false →
    exec (.outData ix b) s = .fault .noOutEndpoint

/-! ### Reset (70_reset_and_hazards.md, 10_state.md section 8) -/

/-- The state at power-on has the values of the reset table: protocol Report, the default rate at IDLE_RESET, every slot
empty and every order empty, every input report's timer at IDLE_RESET with a full countdown, no last report and nothing
due, and no fault (R36, R37; D6, D7, D25). The default rate on an interface without report IDs, which has no such register, is the
model's choice (notes/assumptions/11.md). -/
def Obligations.PowerOnHasTheResetValues : Prop :=
  ∀ c : Config, (State.powerOn c).block.fault = none ∧
    (State.powerOn c).block.cells.length = c.ifs.length ∧
    ∀ (i : Nat) (ic : IfConfig), c.ifs[i]? = some ic →
      ∃ cell, (State.powerOn c).block.cells[i]? = some cell ∧ cell.protocol = .report ∧
        cell.idleDefault = ic.idleReset ∧ (∀ ty id, (cell.buf ty).get id = none) ∧ (∀ ty, (cell.buf ty).order = []) ∧
        ∀ id ∈ ic.ids .input, (cell.timer id).idleRate = ic.idleReset ∧
          (cell.timer id).countdown.toNat = ic.idleReset.toNat * 4 ∧ (cell.timer id).lastReport = none ∧
          (cell.timer id).due = false

/-- reset, from any state that meets the invariant and has no fault, puts every cell into its power-on state, emits
nothing and answers Ok (R240, R36; D5; notes/assumptions/11.md). -/
def Obligations.ResetRestoresThePowerOnState : Prop :=
  ∀ s : State, s.Inv → s.Running →
    ∃ t, exec .reset s = .next t ∧ Emitted s t [] .ok ∧ t.block = (State.powerOn s.config).block

/-! ### Whole-machine rules -/

/-- The reset state meets the invariant and is running. -/
def Obligations.ResetStateIsSafe : Prop := State.reset.Safe

/-- The power-on state of every device of the family meets the invariant (R26, R31 at R37). -/
def Obligations.PowerOnMeetsTheInvariant : Prop := ∀ c : Config, c.Wf → (State.powerOn c).Safe

/-- Every step keeps the invariant: the buffers and timers stay as R26 and R31 say, pending and last reports keep the
configured shape (R24), an interface that is not boot-capable stays in Report protocol (R22) (the spec marks R26 and R31
as derived from its other rules). The sorted lists, the default rate where the register does not exist, and the one cell
for each interface are the model's form of the state (notes/assumptions/11.md, 12.md and 19.md). -/
def Obligations.EveryStepKeepsTheInvariant : Prop :=
  ∀ s t : State, s.Inv → step s = .next t → t.Inv

/-- The access table: an operation leaves every field unchanged, on every interface and for every ID, that the table gives
it no W for (R35, which the spec derives from the operations' rules). -/
def Obligations.OperationsWriteOnlyTheirAccessTableFields : Prop :=
  ∀ (i : Instr) (s t : State) (f : Field), exec i s = .next t → mayWrite s.config i f = false →
    f.Unchanged s.block t.block

/-- A stall, an Unhandled verdict, a Dropped packet and a WouldBlock change no state, emit nothing beside that result and
leave the block running, ready for the next operation; an operation that faults changes only the fault register (R53,
R218). That a stalled or dropped report emits nothing is R155's last sentence, the spec's decision D30; R223 lists
nothing else that the others could emit. -/
def Obligations.RejectedOperationsChangeNoState : Prop :=
  ∀ (i : Instr) (s t : State) (o : Output), exec i s = .next t → t.trace = o :: s.trace →
    (o.result = .wouldBlock ∨ (∃ r, o.result = .stall r) ∨ (∃ r, o.result = .unhandled r) ∨
      (∃ r, o.result = .dropped r) → t.block = s.block ∧ o.events = [] ∧ t.Running) ∧
    ∀ r, o.result = .fault r → t.block.cells = s.block.cells ∧ t.block.fault = some r

/-- A fault is raised only by a programmer's error: ConfigError by write_report of a report that is no valid input report
of its interface, NoSuchInterface by an application operation or out_data whose index, in a state that meets the
invariant, is no interface's (R217, which the spec derives from R150 and R211; D27, D34). -/
def Obligations.OnlyProgrammerErrorsFault : Prop :=
  ∀ (i : Instr) (s t : State) (r : FaultReason), exec i s = .next t → t.block.fault = some r →
    (r = .configError ∧ ∃ ix b ic, i = .writeReport ix b ∧ s.config.ifs[ix]? = some ic ∧
      validReport ic .input b = none) ∨
    (r = .noSuchInterface ∧ ∃ ix b, i ∈ [Instr.writeReport ix b, .readReport ix, .getProtocolCall ix, .outData ix b] ∧
      (s.Inv → s.config.ifs.length ≤ ix))

/-- Each output event comes from the operations R223 lists for it: transmissions and InBusy from poll, IdleExpired from
tick, SetReport from a SET_REPORT (alone or through setup) or from out_data (R223; D30). -/
def Obligations.EventsComeFromTheirOperations : Prop :=
  ∀ (i : Instr) (s t : State) (o : Output) (e : Event), exec i s = .next t → t.trace = o :: s.trace → e ∈ o.events →
    match e with
    | .inTransmit _ _ => ∃ a, i = .poll a
    | .inBusy _ => ∃ a, i = .poll a
    | .idleExpired _ _ => ∃ ms, i = .tick ms
    | .setReport _ _ _ _ =>
      (∃ tc id w l d, i = .setReport tc id w l d) ∨ (∃ ix b, i = .outData ix b) ∨
        ∃ p d, i = .setup p d ∧ s.config.reqCode.select p.key = some .setReport

/-- GET_IDLE, GET_PROTOCOL, GET_DESCRIPTOR and get_protocol of a valid index have no side effect, and neither has
GET_REPORT unless GET_REPORT_CONSUMES (R56; D12). -/
def Obligations.ReadingOperationsHaveNoSideEffects : Prop :=
  ∀ (s t : State) (i : Instr), exec i s = .next t →
    (∃ id w l, i = .getIdle id w l) ∨ (∃ w l, i = .getProtocol w l) ∨ (∃ w l, i = .getDescriptorHid w l) ∨
      (∃ w l, i = .getDescriptorReport w l) ∨ (∃ w l, i = .getDescriptorPhysical w l) ∨
      (∃ ix ic cell, i = .getProtocolCall ix ∧ s.HasCell ix ic cell) ∨
      (s.config.getReportConsumes = false ∧ ∃ tc id w l, i = .getReport tc id w l) →
    t.block = s.block

/-- write_report, SET_REPORT, out_data, SET_IDLE, SET_PROTOCOL and reset are idempotent: done twice in a row with the
same operands they leave the state tuple the first left (R56, derived by the spec from R100 and R134). -/
def Obligations.WritingOperationsAreIdempotent : Prop :=
  ∀ (i : Instr) (s t u : State), exec i s = .next t → exec i t = .next u →
    (∃ ix b, i = .writeReport ix b) ∨ (∃ tc id w l d, i = .setReport tc id w l d) ∨ (∃ ix b, i = .outData ix b) ∨
      (∃ r id w, i = .setIdle r id w) ∨ (∃ v w, i = .setProtocol v w) ∨ i = .reset →
    u.block = t.block

/-- A buffer never holds more reports than the interface has IDs of its type, one per ID (R110, which the spec derives
from R24 and R100). -/
def Obligations.BuffersHoldAtMostOneReportPerId : Prop :=
  ∀ (s : State) (ix : Nat) (ic : IfConfig) (cell : Cell) (ty : ReportType), s.Inv → s.HasCell ix ic cell →
    (cell.buf ty).order.length ≤ (ic.ids ty).length ∧
    ∀ id b, (cell.buf ty).get id = some b → ic.size? ty id = some b.length

/-- One producer per direction: a report that is new in an input buffer was put there by the App agent, one that is new
in an output or feature buffer by the Usb agent (R58; D33). -/
def Obligations.ReportsComeFromTheirProducer : Prop :=
  ∀ (i : Instr) (s t : State) (ix : Nat) (cell cell' : Cell) (ty : ReportType) (id : ReportId) (b : Bytes),
    exec i s = .next t → s.block.cells[ix]? = some cell → t.block.cells[ix]? = some cell' →
    (cell'.buf ty).get id = some b → (cell.buf ty).get id ≠ some b →
    i.agent = (if ty = .input then .app else .usb)

/-- The error codes are 1 to 9 as listed, and a completed operation has none (R211; D24). -/
def Obligations.ErrorCodesAreTheListed : Prop :=
  [Result.wouldBlock, .stall .unsupportedReportId, .stall .invalidProtocolRequest, .stall .malformedRequest,
    .stall .unsupportedRequest, .unhandled .notHidRequest, .unhandled .noSuchInterfaceNumber, .fault .configError,
    .fault .noSuchInterface].map Result.errorCode = [1, 2, 3, 4, 5, 6, 7, 8, 9].map some ∧
  Result.errorCode (.dropped .malformedRequest) = some 4 ∧ (∀ i, (Event.inBusy i).errorCode = some 1) ∧
  Result.errorCode .ok = none ∧ Result.errorCode .ack = none ∧ (∀ b, Result.errorCode (.data b) = none) ∧
  (∀ b, Result.errorCode (.report b) = none) ∧ ∀ p, Result.errorCode (.protocol p) = none
end

