-- ==== Sys2Proof/Laws/Assoc.lean ====
section
/-! SUPPORT. Laws/Assoc.lean: finite maps from report IDs: read after write, and the canonical form. -/

namespace Sys2Proof.Machine

variable {α : Type} {m : List (ReportId × α)} {id j : ReportId} {v : α}

@[simp] theorem Assoc.get_nil : Assoc.get ([] : List (ReportId × α)) id = none := rfl

@[simp] theorem Assoc.get_set_self : Assoc.get (Assoc.set m id v) id = some v := by
  induction m with
  | nil => simp [Assoc.set, Assoc.get]
  | cons p rest ih =>
    obtain ⟨k, w⟩ := p
    simp only [Assoc.set]
    split
    · simp [Assoc.get]
    · split
      · simp [Assoc.get]
      · next hne => simpa [Assoc.get, Ne.symm hne] using ih

@[simp] theorem Assoc.get_set_of_ne (h : j ≠ id) : Assoc.get (Assoc.set m id v) j = Assoc.get m j := by
  induction m with
  | nil => simp [Assoc.set, Assoc.get, Ne.symm h]
  | cons p rest ih =>
    obtain ⟨k, w⟩ := p
    simp only [Assoc.set]
    split
    · simp [Assoc.get, Ne.symm h]
    · split
      · next heq => subst heq; simp [Assoc.get, Ne.symm h]
      · simp [Assoc.get, ih]

@[simp] theorem Assoc.get_erase_self : Assoc.get (Assoc.erase m id) id = none := by
  induction m with
  | nil => rfl
  | cons p rest ih =>
    obtain ⟨k, w⟩ := p
    by_cases h : k = id <;> simp [Assoc.erase, Assoc.get, h, ih]

@[simp] theorem Assoc.get_erase_of_ne (h : j ≠ id) : Assoc.get (Assoc.erase m id) j = Assoc.get m j := by
  induction m with
  | nil => rfl
  | cons p rest ih =>
    obtain ⟨k, w⟩ := p
    by_cases hk : k = id
    · subst hk; simp [Assoc.erase, Assoc.get, Ne.symm h, ih]
    · rw [Assoc.erase, if_neg hk, Assoc.get, Assoc.get, ih]

/-- A listed pair comes from the map, or is the pair written. -/
theorem Assoc.mem_set {p : ReportId × α} (h : p ∈ Assoc.set m id v) : p = (id, v) ∨ p ∈ m := by
  induction m with
  | nil => exact .inl (by simpa [Assoc.set] using h)
  | cons q rest ih =>
    obtain ⟨k, w⟩ := q
    simp only [Assoc.set] at h
    split at h
    · simpa using h
    · split at h
      · rcases List.mem_cons.1 h with h | h
        · exact .inl h
        · exact .inr (List.mem_cons_of_mem _ h)
      · rcases List.mem_cons.1 h with h | h
        · exact .inr (h ▸ List.mem_cons_self)
        · exact (ih h).imp_right (List.mem_cons_of_mem _)

/-- Every listed pair of the map with an ID erased was listed, under another ID. -/
theorem Assoc.mem_erase {p : ReportId × α} (h : p ∈ Assoc.erase m id) : p.1 ≠ id ∧ p ∈ m := by
  induction m with
  | nil => simp [Assoc.erase] at h
  | cons q rest ih =>
    obtain ⟨k, w⟩ := q
    simp only [Assoc.erase] at h
    split at h
    · exact (ih h).imp_right (List.mem_cons_of_mem _)
    · next hk =>
      rcases List.mem_cons.1 h with h | h
      · subst h; exact ⟨hk, List.mem_cons_self⟩
      · exact (ih h).imp_right (List.mem_cons_of_mem _)

/-- What a map gives for an ID is listed. -/
theorem Assoc.mem_of_get (h : Assoc.get m id = some v) : (id, v) ∈ m := by
  induction m with
  | nil => simp at h
  | cons q rest ih =>
    obtain ⟨k, w⟩ := q
    by_cases hk : k = id
    · subst hk; simp [Assoc.get] at h; simp [h]
    · simp [Assoc.get, hk] at h; exact List.mem_cons_of_mem _ (ih h)

/-- A map gives something exactly for the IDs it lists. -/
theorem Assoc.isSome_get_iff : (Assoc.get m id).isSome = true ↔ id ∈ m.map Prod.fst := by
  induction m with
  | nil => simp
  | cons q rest ih =>
    obtain ⟨k, w⟩ := q
    by_cases hk : k = id
    · simp [Assoc.get, hk]
    · rw [Assoc.get, if_neg hk, ih, List.map_cons, List.mem_cons]
      exact ⟨.inr, fun h => h.resolve_left (Ne.symm hk)⟩

/-- In the canonical form, what is listed is what the map gives. -/
theorem Assoc.get_of_mem (hs : Assoc.Sorted m) (h : (id, v) ∈ m) : Assoc.get m id = some v := by
  induction m with
  | nil => simp at h
  | cons q rest ih =>
    obtain ⟨k, w⟩ := q
    simp only [Assoc.Sorted, List.map_cons, List.pairwise_cons] at hs
    rcases List.mem_cons.1 h with h | h
    · cases h; simp [Assoc.get]
    · have hlt : k < id := hs.1 id (List.mem_map_of_mem (f := Prod.fst) h)
      have hne : k ≠ id := by bv_omega
      simpa [Assoc.get, hne] using ih hs.2 h

/-- A write keeps the canonical form. -/
theorem Assoc.sorted_set (hs : Assoc.Sorted m) : Assoc.Sorted (Assoc.set m id v) := by
  induction m with
  | nil => simp [Assoc.set, Assoc.Sorted]
  | cons q rest ih =>
    obtain ⟨k, w⟩ := q
    have hs' := hs
    simp only [Assoc.Sorted, List.map_cons, List.pairwise_cons] at hs'
    simp only [Assoc.set]
    split
    · next hlt =>
      simp only [Assoc.Sorted, List.map_cons, List.pairwise_cons, List.mem_cons]
      refine ⟨?_, hs'⟩
      rintro a (rfl | ha)
      · exact hlt
      · have := hs'.1 a ha; bv_omega
    · split
      · next heq => subst heq; simpa [Assoc.Sorted] using hs'
      · next hge hne =>
        simp only [Assoc.Sorted, List.map_cons, List.pairwise_cons]
        refine ⟨fun a ha => ?_, ih hs'.2⟩
        obtain ⟨p, hp, rfl⟩ := List.mem_map.1 ha
        rcases Assoc.mem_set hp with rfl | hp
        · show k < id; bv_omega
        · exact hs'.1 _ (List.mem_map_of_mem hp)

/-- Erasing keeps the canonical form. -/
theorem Assoc.sorted_erase (hs : Assoc.Sorted m) : Assoc.Sorted (Assoc.erase m id) := by
  induction m with
  | nil => exact hs
  | cons q rest ih =>
    obtain ⟨k, w⟩ := q
    simp only [Assoc.Sorted, List.map_cons, List.pairwise_cons] at hs
    simp only [Assoc.erase]
    split
    · exact ih hs.2
    · simp only [Assoc.Sorted, List.map_cons, List.pairwise_cons]
      refine ⟨fun a ha => ?_, ih hs.2⟩
      obtain ⟨p, hp, rfl⟩ := List.mem_map.1 ha
      exact hs.1 _ (List.mem_map_of_mem (Assoc.mem_erase hp).2)

/-- In the canonical form, writing an ID that is listed keeps the listed IDs. -/
theorem Assoc.keys_set (hs : Assoc.Sorted m) (h : id ∈ m.map Prod.fst) :
    (Assoc.set m id v).map Prod.fst = m.map Prod.fst := by
  induction m with
  | nil => simp at h
  | cons q rest ih =>
    obtain ⟨k, w⟩ := q
    simp only [Assoc.Sorted, List.map_cons, List.pairwise_cons] at hs
    simp only [List.map_cons, List.mem_cons] at h
    have hkle : ¬ id < k := by
      rcases h with rfl | h
      · bv_omega
      · have := hs.1 id h; bv_omega
    simp only [Assoc.set, if_neg hkle]
    split
    · next heq => simp [heq]
    · next hne => simp [ih hs.2 (h.resolve_left hne)]

/-- Writing an ID twice leaves the second value. -/
@[simp] theorem Assoc.set_set {w : α} : Assoc.set (Assoc.set m id w) id v = Assoc.set m id v := by
  induction m with
  | nil => simp [Assoc.set]
  | cons q rest ih =>
    obtain ⟨k, u⟩ := q
    simp only [Assoc.set]
    split
    · simp [Assoc.set]
    · split
      · simp [Assoc.set]
      · next h1 h2 => simp [Assoc.set, h1, h2, ih]

/-- Writes of different IDs commute, the lower one first. -/
theorem Assoc.set_comm_of_lt {w : α} (h : id < j) :
    Assoc.set (Assoc.set m id v) j w = Assoc.set (Assoc.set m j w) id v := by
  have hji : ¬ j < id := by bv_omega
  have hne : j ≠ id := by bv_omega
  induction m with
  | nil => simp [Assoc.set, h, hji, hne]
  | cons q rest ih =>
    obtain ⟨k, u⟩ := q
    by_cases h1 : id < k
    · by_cases h2 : j < k
      · simp [Assoc.set, h, h1, h2, hji, hne]
      · by_cases h3 : j = k
        · subst h3; simp [Assoc.set, h, hji, hne]
        · simp [Assoc.set, h1, h2, h3, hji, hne]
    · by_cases h3 : id = k
      · subst h3; simp [Assoc.set, hji, hne]
      · have h4 : ¬ j < k := by bv_omega
        have h5 : j ≠ k := by bv_omega
        simp [Assoc.set, h1, h3, h4, h5, ih]

/-- Writes of different IDs commute. -/
theorem Assoc.set_comm {w : α} (h : id ≠ j) :
    Assoc.set (Assoc.set m id v) j w = Assoc.set (Assoc.set m j w) id v := by
  by_cases hl : id < j
  · exact Assoc.set_comm_of_lt hl
  · exact (Assoc.set_comm_of_lt (by bv_omega : j < id)).symm

end Sys2Proof.Machine
end

