-- ==== Sys2Proof/Laws/State.lean ====
section
/-! SUPPORT. Laws/State.lean: what each named update changes and what it leaves, field by field. -/

namespace Sys2Proof.Machine

variable (cell : Cell) (t : ReportType) (b : Buffer) (p : Protocol) (r : Byte) (id : ReportId) (x : Timer)

@[simp] theorem Cell.buf_setBuf_self : (cell.setBuf t b).buf t = b := by cases t <;> rfl
@[simp] theorem Cell.buf_setBuf_of_ne {t t' : ReportType} (h : t' ≠ t) : (cell.setBuf t b).buf t' = cell.buf t' := by
  cases t <;> cases t' <;> first | rfl | exact absurd rfl h
@[simp] theorem Cell.protocol_setBuf : (cell.setBuf t b).protocol = cell.protocol := by cases t <;> rfl
@[simp] theorem Cell.idleDefault_setBuf : (cell.setBuf t b).idleDefault = cell.idleDefault := by cases t <;> rfl
@[simp] theorem Cell.timers_setBuf : (cell.setBuf t b).timers = cell.timers := by cases t <;> rfl
@[simp] theorem Cell.timer_setBuf : (cell.setBuf t b).timer id = cell.timer id := by cases t <;> rfl
@[simp] theorem Cell.setBuf_setBuf {b' : Buffer} : (cell.setBuf t b).setBuf t b' = cell.setBuf t b' := by cases t <;> rfl
@[simp] theorem Cell.setBuf_buf : cell.setBuf t (cell.buf t) = cell := by cases t <;> rfl

@[simp] theorem Cell.buf_setProtocol : (cell.setProtocol p).buf t = cell.buf t := by cases t <;> rfl
@[simp] theorem Cell.protocol_setProtocol : (cell.setProtocol p).protocol = p := rfl
@[simp] theorem Cell.idleDefault_setProtocol : (cell.setProtocol p).idleDefault = cell.idleDefault := rfl
@[simp] theorem Cell.timers_setProtocol : (cell.setProtocol p).timers = cell.timers := rfl
@[simp] theorem Cell.timer_setProtocol : (cell.setProtocol p).timer id = cell.timer id := rfl

@[simp] theorem Cell.buf_setIdleDefault : (cell.setIdleDefault r).buf t = cell.buf t := by cases t <;> rfl
@[simp] theorem Cell.protocol_setIdleDefault : (cell.setIdleDefault r).protocol = cell.protocol := rfl
@[simp] theorem Cell.idleDefault_setIdleDefault : (cell.setIdleDefault r).idleDefault = r := rfl
@[simp] theorem Cell.timers_setIdleDefault : (cell.setIdleDefault r).timers = cell.timers := rfl
@[simp] theorem Cell.timer_setIdleDefault : (cell.setIdleDefault r).timer id = cell.timer id := rfl

@[simp] theorem Cell.buf_setTimer : (cell.setTimer id x).buf t = cell.buf t := by cases t <;> rfl
@[simp] theorem Cell.protocol_setTimer : (cell.setTimer id x).protocol = cell.protocol := rfl
@[simp] theorem Cell.idleDefault_setTimer : (cell.setTimer id x).idleDefault = cell.idleDefault := rfl
@[simp] theorem Cell.timers_setTimer : (cell.setTimer id x).timers = Assoc.set cell.timers id x := rfl
@[simp] theorem Cell.timer_setTimer_self : (cell.setTimer id x).timer id = x := by simp [Cell.timer, Cell.setTimer]
@[simp] theorem Cell.timer_setTimer_of_ne {id j : ReportId} (h : j ≠ id) :
    (cell.setTimer id x).timer j = cell.timer j := by simp [Cell.timer, Cell.setTimer, h]
@[simp] theorem Cell.setTimer_setTimer {x' : Timer} : (cell.setTimer id x).setTimer id x' = cell.setTimer id x' := by
  simp [Cell.setTimer]

variable (blk : Block) (i : Nat) (f : FaultReason)

@[simp] theorem Block.cells_setCell : (blk.setCell i cell).cells = blk.cells.set i cell := rfl
@[simp] theorem Block.fault_setCell : (blk.setCell i cell).fault = blk.fault := rfl
@[simp] theorem Block.cells_setFault : (blk.setFault f).cells = blk.cells := rfl
@[simp] theorem Block.fault_setFault : (blk.setFault f).fault = some f := rfl

variable (s : State) (e : Effect) (o : Presented)

@[simp] theorem commit_config : (commit s e).config = s.config := rfl
@[simp] theorem commit_block : (commit s e).block = e.block := rfl
@[simp] theorem commit_port : (commit s e).port = s.port := rfl
@[simp] theorem commit_trace : (commit s e).trace = ⟨e.events, e.result⟩ :: s.trace := rfl
@[simp] theorem State.present_config : (s.present o).config = s.config := rfl
@[simp] theorem State.present_block : (s.present o).block = s.block := rfl
@[simp] theorem State.present_port : (s.present o).port = o :: s.port := rfl
@[simp] theorem State.present_trace : (s.present o).trace = s.trace := rfl
@[simp] theorem State.fetch_present : (s.present o).fetch = some (o, s) := rfl

end Sys2Proof.Machine
end

