-- ==== Sys2Proof/Laws/Buffer.lean ====
section
/-! SUPPORT. Laws/Buffer.lean: the Report Buffer primitives (40_report_buffer.md R100 to R104): what each reads and
writes, and that each keeps the buffer invariant (10_state.md R26). -/

namespace Sys2Proof.Machine

variable {b : Buffer} {id j : ReportId} {r : Bytes} {ic : IfConfig} {t : ReportType}

/-- A valid report's ID is one of the configured IDs. -/
theorem mem_ids_of_size (h : ic.size? t id = some n) : id ∈ ic.ids t :=
  Assoc.isSome_get_iff.1 (by simp [show Assoc.get (ic.sizes t) id = some n from h])

/-- A valid report's ID is one of the configured IDs. -/
theorem validReport_mem (h : validReport ic t r = some id) : id ∈ ic.ids t := by
  simp only [validReport] at h
  split at h
  · cases h
  · split at h
    · next hs => cases h; exact mem_ids_of_size hs
    · cases h

@[simp] theorem Buffer.get_write_self : (b.write id r).get id = some r := by simp [Buffer.get, Buffer.write]
@[simp] theorem Buffer.get_write_of_ne (h : j ≠ id) : (b.write id r).get j = b.get j := by
  simp [Buffer.get, Buffer.write, h]
@[simp] theorem Buffer.order_write : (b.write id r).order = id :: b.order.filter (· ≠ id) := rfl
@[simp] theorem Buffer.get_take_self : (b.take id).2.get id = none := by simp [Buffer.get, Buffer.take]
@[simp] theorem Buffer.get_take_of_ne (h : j ≠ id) : (b.take id).2.get j = b.get j := by
  simp [Buffer.get, Buffer.take, h]
@[simp] theorem Buffer.clear_eq : b.clear = .empty := rfl

/-- What a read answers: the report of the newest pending ID, and the buffer without it. -/
theorem Buffer.read_eq_some {rest : Buffer} (h : b.read = some (r, rest)) :
    ∃ id ids, b.order = id :: ids ∧ b.get id = some r ∧ rest = ⟨Assoc.erase b.slot id, ids⟩ := by
  simp only [Buffer.read] at h
  split at h
  · cases h
  · next id ids ho =>
    simp only [Option.map_eq_some_iff, Prod.mk.injEq] at h
    obtain ⟨r', hr, rfl, rfl⟩ := h
    exact ⟨id, ids, ho, hr, rfl⟩

/-- Writing the same report of an ID again, or another one, forgets the first (R109). -/
theorem Buffer.write_write {r' : Bytes} : (b.write id r).write id r' = b.write id r' := by
  simp [Buffer.write, List.filter_filter]

theorem Buffer.inv_empty : Buffer.empty.Inv ic t := by
  simp [Buffer.Inv, Buffer.empty, Assoc.Sorted]

/-- The buffer without one ID keeps the invariant; `order` is what is left of it. -/
theorem Buffer.inv_erase (h : b.Inv ic t) :
    Buffer.Inv ic t ⟨Assoc.erase b.slot id, b.order.filter (· ≠ id)⟩ := by
  obtain ⟨hs, hn, ho, hm, hv⟩ := h
  refine ⟨Assoc.sorted_erase hs, hn.filter _, fun j hj => ?_, fun p hp => ?_, fun p hp => ?_⟩
  · simp only [List.mem_filter, decide_eq_true_eq] at hj
    simpa [Buffer.get, hj.2] using ho j hj.1
  · have := Assoc.mem_erase hp
    simp [hm p this.2, this.1]
  · exact hv p (Assoc.mem_erase hp).2

theorem Buffer.inv_take (h : b.Inv ic t) : (b.take id).2.Inv ic t := Buffer.inv_erase h

theorem Buffer.inv_write (h : b.Inv ic t) (hv : validReport ic t r = some id) : (b.write id r).Inv ic t := by
  obtain ⟨hs, hn, ho, hm, hvs⟩ := h
  refine ⟨Assoc.sorted_set hs, ?_, fun j hj => ?_, fun p hp => ?_, fun p hp => ?_⟩
  · simp [Buffer.write, hn.filter]
  · by_cases hji : j = id
    · subst hji; simp
    · simp only [Buffer.order_write, List.mem_cons, List.mem_filter, decide_eq_true_eq] at hj
      simpa [hji] using ho j (hj.resolve_left hji).1
  · by_cases hpi : p.1 = id
    · simp [hpi]
    · rcases Assoc.mem_set hp with rfl | hp
      · exact absurd rfl hpi
      · simp [hpi, hm p hp]
  · rcases Assoc.mem_set hp with rfl | hp
    · exact hv
    · exact hvs p hp

theorem Buffer.inv_read {rest : Buffer} (h : b.Inv ic t) (hr : b.read = some (r, rest)) : rest.Inv ic t := by
  obtain ⟨id, ids, ho, -, rfl⟩ := Buffer.read_eq_some hr
  have hn : (id :: ids).Nodup := ho ▸ h.2.1
  have hf : b.order.filter (· ≠ id) = ids := by
    rw [ho, List.filter_cons_of_neg (by simp), List.filter_eq_self]
    intro a ha
    simp only [decide_eq_true_eq]
    rintro rfl
    exact (List.nodup_cons.1 hn).1 ha
  exact hf ▸ Buffer.inv_erase (id := id) h

/-- A pending report has the configured shape (R24). -/
theorem Buffer.valid_of_get (h : b.Inv ic t) (hg : b.get id = some r) : validReport ic t r = some id :=
  h.2.2.2.2 _ (Assoc.mem_of_get hg)

/-- In the invariant, a buffer with a pending ID has something to read. -/
theorem Buffer.read_of_order {ids : List ReportId} (h : b.Inv ic t) (ho : b.order = id :: ids) :
    ∃ r, b.get id = some r ∧ b.read = some (r, ⟨Assoc.erase b.slot id, ids⟩) := by
  obtain ⟨r, hr⟩ := Option.isSome_iff_exists.1 (h.2.2.1 id (by simp [ho]))
  exact ⟨r, hr, by simp [Buffer.read, ho, hr]⟩

end Sys2Proof.Machine
end

