-- ==== Sys2Proof/Laws/Timer.lean ====
section
/-! SUPPORT. Laws/Timer.lean: the Idle Timer primitives (41_idle_timer.md R130 to R134): what each does, in numbers,
and that each keeps the timer invariant (10_state.md R31). -/

namespace Sys2Proof.Machine

variable {t : Timer} {e : Word} {r : Byte} {b : Bytes} {ic : IfConfig} {id : ReportId}

/-- The period in milliseconds (R130). -/
theorem period_toNat : (period r).toNat = r.toNat * 4 := by
  have := r.isLt
  simp only [period, BitVec.toNat_mul, BitVec.toNat_setWidth]
  simp
  omega

/-- Saturating subtraction on naturals (R18). -/
theorem saturatingSub_toNat {a c : Word} : (saturatingSub a c).toNat = a.toNat - c.toNat := by
  simp only [saturatingSub]
  split <;> bv_omega

theorem saturatingSub_eq_zero {a c : Word} : saturatingSub a c = 0 ↔ a ≤ c := by
  rw [← BitVec.toNat_inj, saturatingSub_toNat]
  simp [BitVec.le_def]
  omega

/-- A disabled timer ignores time (R131). -/
theorem Timer.tick_disabled (h : t.idleRate = 0) : t.tick e = (t, false) := by simp [Timer.tick, h]

/-- An enabled timer whose countdown is used up expires and reloads (R131). -/
theorem Timer.tick_expires (h : t.idleRate ≠ 0) (hc : t.countdown ≤ e) :
    t.tick e = ({ t with countdown := period t.idleRate, due := dueAfterExpiry t }, true) := by
  rw [Timer.tick, if_neg h, if_pos (saturatingSub_eq_zero.2 hc)]

/-- An enabled timer with time left counts down (R131). -/
theorem Timer.tick_counts (h : t.idleRate ≠ 0) (hc : ¬ t.countdown ≤ e) :
    t.tick e = ({ t with countdown := saturatingSub t.countdown e }, false) := by
  rw [Timer.tick, if_neg h, if_neg (fun h0 => hc (saturatingSub_eq_zero.1 h0))]

/-- A tick keeps the rate and the last report (R35). -/
@[simp] theorem Timer.tick_idleRate : (t.tick e).1.idleRate = t.idleRate := by
  simp only [Timer.tick]; split <;> [rfl; split <;> rfl]
@[simp] theorem Timer.tick_lastReport : (t.tick e).1.lastReport = t.lastReport := by
  simp only [Timer.tick]; split <;> [rfl; split <;> rfl]

theorem one_le_period (h : r ≠ 0) : 1 ≤ period r := by
  have h1 := period_toNat (r := r)
  have h2 : r.toNat ≠ 0 := fun h0 => h (BitVec.eq_of_toNat_eq (by simpa using h0))
  simp only [BitVec.le_def]
  simp
  omega

theorem Timer.inv_tick (h : t.Inv ic id) : (t.tick e).1.Inv ic id := by
  obtain ⟨hle, h1, hd, hv⟩ := h
  by_cases hr : t.idleRate = 0
  · rw [Timer.tick_disabled hr]; exact ⟨hle, h1, hd, hv⟩
  · by_cases hc : t.countdown ≤ e
    · rw [Timer.tick_expires hr hc]
      refine ⟨BitVec.le_refl _, fun _ => one_le_period hr, fun hdue => ⟨hr, ?_⟩, hv⟩
      simp only [dueAfterExpiry, Bool.or_eq_true] at hdue
      exact hdue.elim (fun h => h) (fun h => (hd h).2)
    · rw [Timer.tick_counts hr hc]
      refine ⟨?_, fun _ => ?_, hd, hv⟩
      · have := saturatingSub_toNat (a := t.countdown) (c := e)
        simp only [BitVec.le_def] at hle ⊢
        omega
      · have := saturatingSub_toNat (a := t.countdown) (c := e)
        simp only [BitVec.le_def] at hc ⊢
        simp
        omega

theorem Timer.inv_noteSent (hv : validReport ic .input b = some id) : (t.noteSent b).Inv ic id := by
  refine ⟨BitVec.le_refl _, fun h => one_le_period h, fun h => absurd h (by simp [Timer.noteSent, dueAfterSent]), fun b' hb => ?_⟩
  simp only [Timer.noteSent, Option.mem_def, Option.some.injEq] at hb
  exact hb ▸ hv

theorem Timer.inv_setRate (h : t.Inv ic id) : (t.setRate r).Inv ic id := by
  obtain ⟨-, -, hd, hv⟩ := h
  refine ⟨BitVec.le_refl _, fun h => one_le_period h, fun h => ?_, hv⟩
  simp only [Timer.setRate, dueAfterRate] at h
  split at h
  · cases h
  · next hr => exact ⟨hr, (hd h).2⟩

theorem Timer.inv_powerOn : (powerOnTimer ic).Inv ic id := by
  exact ⟨BitVec.le_refl _, fun h => one_le_period h, fun h => absurd h (by simp [powerOnTimer]),
    fun b hb => absurd hb (by simp [powerOnTimer])⟩

end Sys2Proof.Machine
end

