-- ==== Sys2Proof/Laws/Cell.lean ====
section
/-! SUPPORT. Laws/Cell.lean: an interface cell: its invariant part by part, and the loops over its timers. -/

namespace Sys2Proof.Machine

variable {ic : IfConfig} {cell : Cell} {t : ReportType} {b : Buffer} {id : ReportId} {x : Timer} {r : Byte}

theorem mem_all (t : ReportType) : t ∈ ReportType.all := by cases t <;> simp [ReportType.all]

/-- The invariant of a cell gives the invariant of each of its buffers. -/
theorem Cell.Inv.buf (h : cell.Inv ic) (t : ReportType) : (cell.buf t).Inv ic t := h.2.2.1 t (mem_all t)

/-- The invariant of a cell gives the invariant of each of its timers. -/
theorem Cell.Inv.timer (h : cell.Inv ic) (hid : id ∈ ic.ids .input) : (cell.timer id).Inv ic id := by
  have hk : id ∈ cell.timers.map Prod.fst := by rw [h.2.2.2.1]; exact hid
  obtain ⟨t, ht⟩ := Option.isSome_iff_exists.1 (Assoc.isSome_get_iff.2 hk)
  simpa [Cell.timer, ht] using h.2.2.2.2 _ (Assoc.mem_of_get ht)

theorem Cell.inv_setBuf (h : cell.Inv ic) (hb : b.Inv ic t) : (cell.setBuf t b).Inv ic := by
  refine ⟨by simpa using h.1, by simpa using h.2.1, fun t' _ => ?_, by simpa using h.2.2.2.1, by simpa using h.2.2.2.2⟩
  by_cases ht : t' = t
  · subst ht; simpa using hb
  · simpa [ht] using h.buf t'

theorem Cell.inv_setProtocol {p : Protocol} (h : cell.Inv ic) (hp : ic.bootCapable = false → p = .report) :
    (cell.setProtocol p).Inv ic :=
  ⟨hp, h.2.1, fun t ht => by simpa using h.2.2.1 t ht, h.2.2.2.1, h.2.2.2.2⟩

theorem Cell.inv_setIdleDefault (h : cell.Inv ic) (hr : ic.usesIds = false → r = ic.idleReset) :
    (cell.setIdleDefault r).Inv ic :=
  ⟨h.1, hr, fun t ht => by simpa using h.2.2.1 t ht, h.2.2.2.1, h.2.2.2.2⟩

theorem Cell.inv_setTimer (hs : Assoc.Sorted (ic.sizes .input)) (h : cell.Inv ic) (hid : id ∈ ic.ids .input)
    (hx : x.Inv ic id) : (cell.setTimer id x).Inv ic := by
  have hk := h.2.2.2.1
  have hsort : Assoc.Sorted cell.timers := by rw [Assoc.Sorted, hk]; exact hs
  refine ⟨h.1, h.2.1, fun t ht => by simpa using h.2.2.1 t ht, ?_, fun p hp => ?_⟩
  · rw [Cell.timers_setTimer, Assoc.keys_set hsort (by rw [hk]; exact hid), hk]
  · rcases Assoc.mem_set hp with rfl | hp
    · exact hx
    · exact h.2.2.2.2 p hp

theorem Cell.inv_powerOn : (powerOnCell ic).Inv ic := by
  refine ⟨fun _ => rfl, fun _ => rfl, fun t _ => ?_, ?_, fun p hp => ?_⟩
  · cases t <;> exact Buffer.inv_empty
  · simp [powerOnCell, Function.comp_def]
  · simp only [powerOnCell, List.mem_map] at hp
    obtain ⟨id, -, rfl⟩ := hp
    exact Timer.inv_powerOn

/-- A loop that rewrites the timers of a list of IDs: what it leaves alone. -/
theorem tickTimers_frame (i : Nat) (e : Word) (ids : List ReportId) (cell : Cell) :
    ∃ ts, (tickTimers i e ids cell).1 = { cell with timers := ts } := by
  induction ids generalizing cell with
  | nil => exact ⟨cell.timers, rfl⟩
  | cons id ids ih => exact ih (cell.setTimer id ((cell.timer id).tick e).1)

theorem tickTimers_timer_of_notMem {i : Nat} {e : Word} {ids : List ReportId} (h : id ∉ ids) :
    (tickTimers i e ids cell).1.timer id = cell.timer id := by
  induction ids generalizing cell with
  | nil => rfl
  | cons j ids ih =>
    simp only [List.mem_cons, not_or] at h
    rw [tickTimers, ih h.2, Cell.timer_setTimer_of_ne _ _ h.1]

theorem tickTimers_timer_of_mem {i : Nat} {e : Word} {ids : List ReportId} (hn : ids.Nodup) (h : id ∈ ids) :
    (tickTimers i e ids cell).1.timer id = ((cell.timer id).tick e).1 := by
  induction ids generalizing cell with
  | nil => cases h
  | cons j ids ih =>
    rw [List.nodup_cons] at hn
    by_cases hj : id = j
    · subst hj; rw [tickTimers, tickTimers_timer_of_notMem hn.1, Cell.timer_setTimer_self]
    · rw [tickTimers, ih hn.2 ((List.mem_cons.1 h).resolve_left hj), Cell.timer_setTimer_of_ne _ _ hj]

/-- The expiry events: one for each listed ID whose timer expires, in list order (R132). -/
theorem tickTimers_events {i : Nat} {e : Word} {ids : List ReportId} (hn : ids.Nodup) :
    (tickTimers i e ids cell).2 = (ids.filter (fun id => ((cell.timer id).tick e).2)).map (.idleExpired i) := by
  induction ids generalizing cell with
  | nil => rfl
  | cons j ids ih =>
    rw [List.nodup_cons] at hn
    have hrest : ids.filter (fun id => (((cell.setTimer j ((cell.timer j).tick e).1).timer id).tick e).2) =
        ids.filter (fun id => ((cell.timer id).tick e).2) :=
      List.filter_congr (fun a ha => by
        have haj : a ≠ j := fun h => hn.1 (h ▸ ha)
        rw [Cell.timer_setTimer_of_ne _ _ haj])
    rw [tickTimers, ih hn.2, hrest]
    by_cases hx : ((cell.timer j).tick e).2 = true <;> simp [hx]

theorem setRates_frame (r : Byte) (ids : List ReportId) (cell : Cell) :
    ∃ ts, setRates r ids cell = { cell with timers := ts } := by
  induction ids generalizing cell with
  | nil => exact ⟨cell.timers, rfl⟩
  | cons id ids ih => exact ih (cell.setTimer id ((cell.timer id).setRate r))

theorem setRates_timer_of_notMem {ids : List ReportId} (h : id ∉ ids) :
    (setRates r ids cell).timer id = cell.timer id := by
  induction ids generalizing cell with
  | nil => rfl
  | cons j ids ih =>
    simp only [List.mem_cons, not_or] at h
    rw [setRates, ih h.2, Cell.timer_setTimer_of_ne _ _ h.1]

theorem setRates_timer_of_mem {ids : List ReportId} (h : id ∈ ids) :
    (setRates r ids cell).timer id = (cell.timer id).setRate r := by
  have hidem : ∀ x : Timer, (x.setRate r).setRate r = x.setRate r := by
    intro x; simp only [Timer.setRate, dueAfterRate]; split <;> rfl
  have gen : ∀ (ids : List ReportId) (cell : Cell), (setRates r ids cell).timer id = (cell.timer id).setRate r ∨
      (id ∉ ids ∧ (setRates r ids cell).timer id = cell.timer id) := by
    intro ids
    induction ids with
    | nil => exact fun cell => .inr ⟨by simp, rfl⟩
    | cons j ids ih =>
      intro cell
      rw [setRates]
      by_cases hj : id = j
      · subst hj
        rcases ih (cell.setTimer id ((cell.timer id).setRate r)) with h | h
        · exact .inl (by rw [h, Cell.timer_setTimer_self, hidem])
        · exact .inl (by rw [h.2, Cell.timer_setTimer_self])
      · rcases ih (cell.setTimer j ((cell.timer j).setRate r)) with h | h
        · exact .inl (by rw [h, Cell.timer_setTimer_of_ne _ _ hj])
        · exact .inr ⟨by simp [hj, h.1], by rw [h.2, Cell.timer_setTimer_of_ne _ _ hj]⟩
  exact (gen ids cell).resolve_right (fun h' => h'.1 h)

/-- A loop of timer writes for IDs of the interface keeps the cell's invariant. -/
theorem Cell.inv_tickTimers {i : Nat} {e : Word} {ids : List ReportId} (hs : Assoc.Sorted (ic.sizes .input))
    (h : cell.Inv ic) (hids : ∀ id ∈ ids, id ∈ ic.ids .input) : (tickTimers i e ids cell).1.Inv ic := by
  induction ids generalizing cell with
  | nil => exact h
  | cons j ids ih =>
    have hj := hids j (by simp)
    exact ih (Cell.inv_setTimer hs h hj (Timer.inv_tick (h.timer hj))) (fun a ha => hids a (by simp [ha]))

theorem Cell.inv_setRates {ids : List ReportId} (hs : Assoc.Sorted (ic.sizes .input)) (h : cell.Inv ic)
    (hids : ∀ id ∈ ids, id ∈ ic.ids .input) : (setRates r ids cell).Inv ic := by
  induction ids generalizing cell with
  | nil => exact h
  | cons j ids ih =>
    have hj := hids j (by simp)
    exact ih (Cell.inv_setTimer hs h hj (Timer.inv_setRate (h.timer hj))) (fun a ha => hids a (by simp [ha]))

end Sys2Proof.Machine
end

