-- ==== Sys2Proof/Laws/Codec.lean ====
section
/-! SUPPORT. Laws/Codec.lean: fields of words put together and taken apart again, and the request table's selection. -/

namespace Sys2Proof

@[simp] theorem loByte_halfOf (lo hi : Byte) : loByte (halfOf lo hi) = lo := by
  ext i h
  simp [loByte, halfOf]

@[simp] theorem hiByte_halfOf (lo hi : Byte) : hiByte (halfOf lo hi) = hi := by
  ext i h
  have h8 : 8 + i < 16 := by omega
  simp [hiByte, halfOf, BitVec.getLsbD_eq_getElem h, h8]

@[simp] theorem halfOf_bytes (h : Half) : halfOf (loByte h) (hiByte h) = h := by
  ext i hi
  simp only [halfOf, loByte, hiByte, BitVec.getElem_or, BitVec.getElem_setWidth, BitVec.getElem_shiftLeft,
    BitVec.getLsbD_setWidth, BitVec.getLsbD_ushiftRight]
  by_cases h8 : i < 8
  · simp [h8, BitVec.getLsbD_eq_getElem hi]
  · have h1 : i - 8 < 8 := by omega
    have h2 : 8 + (i - 8) = i := by omega
    simp [h8, h1, h2, BitVec.getLsbD_eq_getElem hi]

@[simp] theorem wordOf_bytes (w : Word) : wordOf (wordByte w 0) (wordByte w 1) (wordByte w 2) (wordByte w 3) = w := by
  ext i hi
  simp only [wordOf, wordByte, BitVec.getElem_or, BitVec.getElem_setWidth, BitVec.getElem_shiftLeft,
    BitVec.getLsbD_setWidth, BitVec.getLsbD_ushiftRight]
  have h0 := BitVec.getLsbD_eq_getElem (x := w) hi
  rcases (by omega : i < 8 ∨ 8 ≤ i ∧ i < 16 ∨ 16 ≤ i ∧ i < 24 ∨ 24 ≤ i) with h | ⟨h, h'⟩ | ⟨h, h'⟩ | h
  · have h1 : i < 16 := by omega
    have h2 : i < 24 := by omega
    simp [h, h1, h2, h0]
  · have h1 : ¬ i < 8 := by omega
    have h2 : i < 24 := by omega
    have h3 : i - 8 < 8 := by omega
    have h4 : 8 + (i - 8) = i := by omega
    simp [h', h1, h2, h3, h4, h0]
  · have h1 : ¬ i < 8 := by omega
    have h2 : ¬ i < 16 := by omega
    have h3 : ¬ i - 8 < 8 := by omega
    have h4 : i - 16 < 8 := by omega
    have h5 : 16 + (i - 16) = i := by omega
    simp [h', h1, h2, h3, h4, h5, h0]
  · have h1 : ¬ i < 8 := by omega
    have h2 : ¬ i < 16 := by omega
    have h3 : ¬ i - 8 < 8 := by omega
    have h4 : ¬ i - 16 < 8 := by omega
    have h5 : ¬ i < 24 := by omega
    have h6 : i - 24 < 8 := by omega
    have h7 : 24 + (i - 24) = i := by omega
    simp [h1, h2, h3, h4, h5, h6, h7, h0]

@[simp] theorem takeWord?_wordBytes (w : Word) (rest : Bytes) : takeWord? (wordBytes w ++ rest) = some (w, rest) := by
  simp [takeWord?, wordBytes]

@[simp] theorem parse?_wire (p : SetupPacket) (data : Bytes) : SetupPacket.parse? (p.wire ++ data) = some (p, data) := by
  simp [SetupPacket.parse?, SetupPacket.wire]

@[simp] theorem decodeDraw_map (accept : List Bool) : decodeDraw (accept.map drawByte) = .ok accept := by
  induction accept with
  | nil => rfl
  | cons a rest ih => cases a <;> simp [decodeDraw, drawByte, ih, Except.map]

theorem toNat_ofNat_index {ix : Nat} (h : indexFits ix) : (BitVec.ofNat 32 ix).toNat = ix := by
  simpa using Nat.mod_eq_of_lt h

/-- Two rows that no key shares select no key together (R73). -/
theorem RequestRow.not_both {a b : RequestRow} (h : a.disjoint b = true) {key : Word} (ha : a.selects key = true) :
    b.selects key = false := by
  simp only [RequestRow.disjoint, bne_iff_ne, ne_eq, RequestRow.selects, beq_iff_eq] at h ha ⊢
  rw [beq_eq_false_iff_ne]
  intro hb
  refine h ?_
  rw [← ha, ← hb]
  ext i hi
  simp only [BitVec.getElem_and, BitVec.getElem_xor]
  cases key[i] <;> cases a.mask[i] <;> cases b.mask[i] <;> simp

/-- The row a key selects, in a table whose rows no key shares, is the one found. -/
theorem find?_selects {rows : List RequestRow} (hp : rows.Pairwise (fun a b => a.disjoint b = true)) {r : RequestRow}
    (hr : r ∈ rows) {key : Word} (hk : r.selects key = true) : rows.find? (fun r => r.selects key) = some r := by
  induction rows with
  | nil => cases hr
  | cons a rows ih =>
    rw [List.pairwise_cons] at hp
    rcases List.mem_cons.1 hr with rfl | hr
    · simp [hk]
    · have hsym : a.selects key = false := by
        cases ha : a.selects key with
        | false => rfl
        | true => rw [RequestRow.not_both (hp.1 r hr) ha] at hk; cases hk
      simpa [hsym] using ih hp.2 hr

/-- A usable `REQ_CODE` selects the row that matches. -/
theorem ReqCode.select_eq {rc : ReqCode} (h : rc.Wf) {r : RequestRow} (hr : r ∈ rc.table) {key : Word}
    (hk : r.selects key = true) : rc.select key = some r.request := by
  simp [ReqCode.select, find?_selects h.1 hr hk]

/-- The bits under a class row's mask. -/
theorem classMask_bit {i : Nat} (hi : i < 32) : (0x0000FFFF : Word)[i] = decide (i < 16) := by
  revert i; decide

/-- The bits under a descriptor row's mask. -/
theorem descriptorMask_bit {i : Nat} (hi : i < 32) :
    (0xFF00FFFF : Word)[i] = (decide (i < 16) || decide (24 ≤ i)) := by
  revert i; decide

/-- The low half of a key is `bmRequestType` and `bRequest` (R71). -/
theorem key_and_classMask (p : SetupPacket) : p.key &&& 0x0000FFFF = classValue p.bmRequestType p.bRequest := by
  ext i hi
  rw [BitVec.getElem_and, classMask_bit hi]
  simp only [SetupPacket.key, classValue, BitVec.getElem_or, BitVec.getElem_setWidth, BitVec.getElem_shiftLeft]
  by_cases h : i < 16
  · have h24 : i < 24 := by omega
    simp [h, h24]
  · have h1 : 8 ≤ i := by omega
    have h2 : 8 ≤ i - 8 := by omega
    simp [h, BitVec.getLsbD_of_ge _ _ h1, BitVec.getLsbD_of_ge _ _ h2]

/-- The key under a descriptor row's mask: `bmRequestType`, `bRequest` and `wValue[15:8]` (R71). -/
theorem key_and_descriptorMask (p : SetupPacket) :
    p.key &&& 0xFF00FFFF = descriptorValue p.bmRequestType p.bRequest (hiByte p.wValue) := by
  ext i hi
  rw [BitVec.getElem_and, descriptorMask_bit hi]
  simp only [SetupPacket.key, descriptorValue, BitVec.getElem_or, BitVec.getElem_setWidth, BitVec.getElem_shiftLeft]
  by_cases h : i < 16
  · have h24 : i < 24 := by omega
    simp [h, h24]
  · have h1 : 8 ≤ i := by omega
    have h2 : 8 ≤ i - 8 := by omega
    by_cases h3 : 24 ≤ i
    · have h4 : 8 ≤ i - 16 := by omega
      have h5 : ¬ i < 24 := by omega
      simp [h, h3, h5, BitVec.getLsbD_of_ge _ _ h1, BitVec.getLsbD_of_ge _ _ h2, BitVec.getLsbD_of_ge _ _ h4]
    · have h5 : i < 24 := by omega
      simp [h, h3, h5, BitVec.getLsbD_of_ge _ _ h1, BitVec.getLsbD_of_ge _ _ h2]

end Sys2Proof
end

