-- ==== Sys2Proof/Laws/Ops.lean ====
section
/-! SUPPORT. Laws/Ops.lean: what the shared operations of Machine/Ops.lean can do: committing an effect, reaching one
interface by index or by number, and serving every interface. -/

namespace Sys2Proof.Machine

variable {s t : State} {f : Config → Block → Effect} {c : Config} {b : Block} {i : Nat}

/-- A running block performs the operation. -/
theorem perform_running (h : s.Running) : perform s f = .next (commit s (f s.config s.block)) := by
  simp [perform, unlessFaulted, show s.block.fault = none from h]

/-- A faulted block performs nothing (R224). -/
theorem perform_faulted {r : FaultReason} (h : s.block.fault = some r) : perform s f = .fault (.sticky r) := by
  simp [perform, unlessFaulted, h]

/-- If an operation answers a next state, the block was running and the state is its committed effect. -/
theorem perform_next (h : perform s f = .next t) : s.Running ∧ t = commit s (f s.config s.block) := by
  cases hf : s.block.fault with
  | none => rw [perform_running hf] at h; cases h; exact ⟨hf, rfl⟩
  | some r => rw [perform_faulted hf] at h; cases h

theorem cellAt_eq_some {ic : IfConfig} {cell : Cell} :
    cellAt c b i = some (ic, cell) ↔ c.ifs[i]? = some ic ∧ b.cells[i]? = some cell := by
  cases h1 : c.ifs[i]? <;> cases h2 : b.cells[i]? <;> simp [cellAt, h1, h2]

/-- What an operation that names its interface by index can do: fault and change nothing else, or change one
cell. -/
theorem onInterface_cases (ix : Nat) (g : IfConfig → Cell → Except FaultReason CellEffect) (c : Config) (b : Block) :
    (∃ r, onInterface ix g c b = raiseFault r b) ∨
      ∃ ic cell e, c.ifs[ix]? = some ic ∧ b.cells[ix]? = some cell ∧ g ic cell = .ok e ∧
        onInterface ix g c b = b.store ix e := by
  simp only [onInterface]
  split
  · exact .inl ⟨_, rfl⟩
  · next ic cell h =>
    obtain ⟨h1, h2⟩ := cellAt_eq_some.1 h
    split
    · exact .inl ⟨_, rfl⟩
    · next e he => exact .inr ⟨ic, cell, e, h1, h2, he, rfl⟩

/-- An index with a cell reaches that cell. -/
theorem onInterface_of_cell {ix : Nat} {g : IfConfig → Cell → Except FaultReason CellEffect} {ic : IfConfig} {cell : Cell}
    (h1 : c.ifs[ix]? = some ic) (h2 : b.cells[ix]? = some cell) :
    onInterface ix g c b = match g ic cell with
      | .error r => raiseFault r b
      | .ok e => b.store ix e := by
  cases hg : g ic cell <;> simp only [onInterface, cellAt_eq_some.2 ⟨h1, h2⟩, hg]

/-- An index at or above `N_IF` faults. -/
theorem onInterface_of_ge {ix : Nat} {g : IfConfig → Cell → Except FaultReason CellEffect} (h : c.ifs.length ≤ ix) :
    onInterface ix g c b = raiseFault .noSuchInterface b := by
  simp [onInterface, cellAt, List.getElem?_eq_none h]

/-- What a control request can do: nothing, or change one cell. -/
theorem routed_cases (w : Half) (g : Nat → IfConfig → Cell → CellEffect) (c : Config) (b : Block) :
    routed w g c b = decline .noSuchInterfaceNumber b ∨
      ∃ i ic cell, interfaceIndex c w = some i ∧ c.ifs[i]? = some ic ∧ b.cells[i]? = some cell ∧
        routed w g c b = b.store i (g i ic cell) := by
  simp only [routed]
  split
  · exact .inl rfl
  · next i hi =>
    split
    · exact .inl rfl
    · next ic cell h =>
      obtain ⟨h1, h2⟩ := cellAt_eq_some.1 h
      exact .inr ⟨i, ic, cell, hi, h1, h2, rfl⟩

/-- A request addressed to an interface reaches that interface's cell. -/
theorem routed_of_routes {w : Half} {g : Nat → IfConfig → Cell → CellEffect} {ic : IfConfig} {cell : Cell}
    (h : s.Routes w i ic cell) : routed w g s.config s.block = s.block.store i (g i ic cell) := by
  simp [routed, h.1, cellAt_eq_some.2 h.2]

theorem serviceFrom_length (g : Nat → IfConfig → Cell → Cell × List Event) (i : Nat) (ics : List IfConfig)
    (cells : List Cell) : (serviceFrom g i ics cells).1.length = cells.length := by
  induction ics generalizing i cells with
  | nil => simp [serviceFrom]
  | cons ic ics ih =>
    cases cells with
    | nil => simp [serviceFrom]
    | cons cell cells => simp [serviceFrom, ih]

/-- Each interface is served from its own configuration and cell. -/
theorem serviceFrom_getElem? {g : Nat → IfConfig → Cell → Cell × List Event} {i k : Nat} {ics : List IfConfig}
    {cells : List Cell} {ic : IfConfig} {cell : Cell} (h1 : ics[k]? = some ic) (h2 : cells[k]? = some cell) :
    (serviceFrom g i ics cells).1[k]? = some (g (i + k) ic cell).1 := by
  induction ics generalizing i k cells with
  | nil => simp at h1
  | cons jc ics ih =>
    cases cells with
    | nil => simp at h2
    | cons d cells =>
      cases k with
      | zero => simp_all [serviceFrom]
      | succ k =>
        have := ih (i := i + 1) (k := k) (by simpa using h1) (by simpa using h2)
        simpa [serviceFrom, Nat.add_assoc, Nat.add_comm 1 k] using this

/-- A cell with no configuration is not served; a cell that is served has both. -/
theorem serviceFrom_cases {g : Nat → IfConfig → Cell → Cell × List Event} {i k : Nat} {ics : List IfConfig}
    {cells : List Cell} {cell' : Cell} (h : (serviceFrom g i ics cells).1[k]? = some cell') :
    (ics[k]? = none ∧ cells[k]? = some cell') ∨
      ∃ ic cell, ics[k]? = some ic ∧ cells[k]? = some cell ∧ cell' = (g (i + k) ic cell).1 := by
  have hlen : k < cells.length := by
    rw [← serviceFrom_length g i ics cells]; exact (List.getElem?_eq_some_iff.1 h).1
  cases hic : ics[k]? with
  | some ic =>
    have hc : cells[k]? = some cells[k] := List.getElem?_eq_getElem hlen
    have := serviceFrom_getElem? (g := g) (i := i) hic hc
    exact .inr ⟨ic, cells[k], rfl, hc, by rw [h] at this; exact Option.some.inj this⟩
  | none =>
    refine .inl ⟨rfl, ?_⟩
    induction ics generalizing i k cells with
    | nil => simpa [serviceFrom] using h
    | cons jc ics ih =>
      cases cells with
      | nil => simp at hlen
      | cons d cells =>
        cases k with
        | zero => simp at hic
        | succ k =>
          simpa using ih (i := i + 1) (k := k) (cells := cells) (by simpa [serviceFrom] using h) (by simpa using hlen)
            (by simpa using hic)

/-- The events of a service are the interfaces' events in registration order (R59). -/
theorem serviceFrom_events (g : Nat → IfConfig → Cell → Cell × List Event) (i : Nat) (ics : List IfConfig)
    (cells : List Cell) :
    (serviceFrom g i ics cells).2 = ((ics.zip cells).zipIdx i).flatMap (fun p => (g p.2 p.1.1 p.1.2).2) := by
  induction ics generalizing i cells with
  | nil => simp [serviceFrom]
  | cons ic ics ih =>
    cases cells with
    | nil => simp [serviceFrom]
    | cons cell cells => simp [serviceFrom, ih, List.zipIdx_cons]

/-- If every interface's service is about that interface, the events of interface `k` are those of its own
service. -/
theorem serviceFrom_eventsOf {g : Nat → IfConfig → Cell → Cell × List Event} {i k : Nat} {ics : List IfConfig}
    {cells : List Cell} {ic : IfConfig} {cell : Cell} (hg : ∀ i ic cell, ∀ e ∈ (g i ic cell).2, e.iface = i)
    (h1 : ics[k]? = some ic) (h2 : cells[k]? = some cell) :
    eventsOf (i + k) (serviceFrom g i ics cells).2 = (g (i + k) ic cell).2 := by
  have own : ∀ j ic cell, eventsOf j (g j ic cell).2 = (g j ic cell).2 := fun j ic cell => by
    simp only [eventsOf, List.filter_eq_self, beq_iff_eq]
    exact hg j ic cell
  have other : ∀ j j' ic cell, j' ≠ j → eventsOf j (g j' ic cell).2 = [] := fun j j' ic cell hne => by
    simp only [eventsOf, List.filter_eq_nil_iff, beq_iff_eq]
    exact fun e he h => hne ((hg j' ic cell e he).symm.trans h)
  have later : ∀ (ics : List IfConfig) (cells : List Cell) (i j : Nat), i < j →
      eventsOf i (serviceFrom g j ics cells).2 = [] := by
    intro ics
    induction ics with
    | nil => intro cells i j _; simp [serviceFrom, eventsOf]
    | cons ic ics ih =>
      intro cells i j hij
      cases cells with
      | nil => simp [serviceFrom, eventsOf]
      | cons cell cells =>
        have h1 := other i j ic cell (by omega)
        have h2 := ih cells i (j + 1) (by omega)
        simp only [eventsOf] at h1 h2 ⊢
        simp [serviceFrom, h1, h2]
  induction ics generalizing i k cells with
  | nil => simp at h1
  | cons jc ics ih =>
    cases cells with
    | nil => simp at h2
    | cons d cells =>
      cases k with
      | zero =>
        simp only [List.getElem?_cons_zero, Option.some.injEq] at h1 h2
        subst h1 h2
        have h3 := own i jc d
        have h4 := later ics cells i (i + 1) (by omega)
        simp only [eventsOf, Nat.add_zero] at h3 h4 ⊢
        simp [serviceFrom, h3, h4]
      | succ k =>
        have h3 := other (i + (k + 1)) i jc d (by omega)
        have h4 := ih (i := i + 1) (k := k) (cells := cells) (by simpa using h1) (by simpa using h2)
        rw [show i + 1 + k = i + (k + 1) by omega] at h4
        simp only [eventsOf] at h3 h4 ⊢
        simp [serviceFrom, h3, h4]

theorem tickTimers_iface {i : Nat} {e : Word} {ids : List ReportId} {cell : Cell} :
    ∀ x ∈ (tickTimers i e ids cell).2, x.iface = i := by
  induction ids generalizing cell with
  | nil => simp [tickTimers]
  | cons id ids ih =>
    intro x hx
    simp only [tickTimers] at hx
    split at hx
    · rcases List.mem_cons.1 hx with rfl | hx
      · rfl
      · exact ih x hx
    · exact ih x hx

theorem pollCell_iface {accept : List Bool} {i : Nat} {ic : IfConfig} {cell : Cell} :
    ∀ x ∈ (pollCell accept i ic cell).2, x.iface = i := by
  simp only [pollCell]
  split
  · simp
  · split <;> simp [Event.iface]

end Sys2Proof.Machine
end

