-- ==== Sys2Proof/Laws/Exec.lean ====
section
/-! SUPPORT. Laws/Exec.lean: what exec can do, in the words of Safety.lean: every operation is one `perform` (or
out_data's stop), a request is one routed cell effect, and what storing one cell's effect leaves alone. -/

namespace Sys2Proof.Machine

variable {s t : State} {i : Instr} {ix : Nat} {ic : IfConfig} {cell : Cell}

/-! ### Single cells -/

/-- Storing an effect changes one cell. -/
theorem onlyCellBecomes_store (h : s.HasCell ix ic cell) (e : CellEffect) :
    OnlyCellBecomes s (commit s (s.block.store ix e)) ix e.cell := by
  have hl : ix < s.block.cells.length := (List.getElem?_eq_some_iff.1 h.2).1
  exact ⟨rfl, by simp [Block.store], by simp [Block.store, hl], fun j hj => by simp [Block.store, Ne.symm hj]⟩

/-- Putting a cell back changes nothing. -/
theorem setCell_self (h : s.HasCell ix ic cell) : s.block.setCell ix cell = s.block := by
  obtain ⟨hl, hg⟩ := List.getElem?_eq_some_iff.1 h.2
  simp [Block.setCell, ← hg, List.set_getElem_self hl]

/-- An operation that ends without touching its cell changes nothing of the state tuple. -/
theorem leavesBlock_store (h : s.HasCell ix ic cell) (r : Result) :
    LeavesBlock s (commit s (s.block.store ix (unchanged cell r))) r :=
  ⟨⟨rfl, rfl, rfl⟩, setCell_self h⟩

theorem store_length (b : Block) (ix : Nat) (e : CellEffect) : (b.store ix e).block.cells.length = b.cells.length := by
  simp [Block.store]

theorem onInterface_length (ix : Nat) (g : IfConfig → Cell → Except FaultReason CellEffect) (c : Config) (b : Block) :
    (onInterface ix g c b).block.cells.length = b.cells.length := by
  rcases onInterface_cases ix g c b with ⟨r, h⟩ | ⟨ic, cell, e, -, -, -, h⟩ <;> rw [h]
  · rfl
  · exact store_length ..

theorem routed_length (w : Half) (g : Nat → IfConfig → Cell → CellEffect) (c : Config) (b : Block) :
    (routed w g c b).block.cells.length = b.cells.length := by
  rcases routed_cases w g c b with h | ⟨i, ic, cell, -, -, -, h⟩ <;> rw [h]
  · rfl
  · exact store_length ..

/-! ### The invariant of one interface -/

theorem State.inv_cell (h : s.Inv) (hc : s.HasCell ix ic cell) : cell.Inv ic :=
  h.2.2 (ic, cell) (List.mem_of_getElem? (i := ix) (by simp [List.getElem?_zip_eq_some, hc.1, hc.2]))

theorem State.inv_ifc (h : s.Inv) (hc : s.config.ifs[ix]? = some ic) : ic.Wf :=
  h.1.2.2.1 ic (List.mem_of_getElem? hc)

/-- Pending IDs are configured IDs (R26). -/
theorem Buffer.inv_mem_ids {b : Buffer} {ty : ReportType} (h : b.Inv ic ty) {id : ReportId} (hid : id ∈ b.order) :
    id ∈ ic.ids ty := by
  obtain ⟨r, hr⟩ := Option.isSome_iff_exists.1 (h.2.2.1 id hid)
  exact validReport_mem (Buffer.valid_of_get h hr)

theorem IfConfig.ids_nodup (h : ic.Wf) (ty : ReportType) : (ic.ids ty).Nodup :=
  ((h.1 ty (mem_all ty)).1).imp (fun hab => BitVec.ne_of_lt hab)

/-- The invariant from its cells: enough to know it of each interface's cell. -/
theorem State.inv_of_cells (hw : s.config.Wf) (hl : s.block.cells.length = s.config.ifs.length)
    (h : ∀ ix ic cell, s.HasCell ix ic cell → cell.Inv ic) : s.Inv := by
  refine ⟨hw, hl, fun p hp => ?_⟩
  obtain ⟨ix, hix⟩ := List.mem_iff_getElem?.1 hp
  obtain ⟨h1, h2⟩ := List.getElem?_zip_eq_some.1 hix
  exact h ix p.1 p.2 ⟨h1, h2⟩

/-! ### Operations -/

theorem lacksOutEndpoint_iff {c : Config} :
    lacksOutEndpoint c ix = true ↔ ∃ ic, c.ifs[ix]? = some ic ∧ ic.hasOutEp = false := by
  simp [lacksOutEndpoint, Option.any_eq_true]

/-- setup is the request its packet selects (R150, R79). -/
theorem exec_setup {p : SetupPacket} {data : Bytes} {r : Request} (h : s.config.reqCode.select p.key = some r) :
    exec (.setup p data) s = exec (requestInstr r p data) s := by
  simp only [exec, execSetup, h]; cases r <;> rfl

/-- A setup packet that selects no request is declined (R79). -/
theorem exec_setup_none {p : SetupPacket} {data : Bytes} (h : s.config.reqCode.select p.key = none) :
    exec (.setup p data) s = perform s (fun _ b => decline .notHidRequest b) := by
  simp only [exec, execSetup, h]

/-- Every operation is performed, but for out_data without an OUT endpoint. -/
theorem exec_performs (i : Instr) (s : State) : (∃ f, exec i s = perform s f) ∨
    ∃ ix b ic, i = .outData ix b ∧ s.config.ifs[ix]? = some ic ∧ ic.hasOutEp = false ∧
      exec i s = unlessFaulted s (.fault .noOutEndpoint) := by
  cases i with
  | setup p d =>
    simp only [exec, execSetup]
    split <;> exact .inl ⟨_, rfl⟩
  | outData ix b =>
    simp only [exec, execOutData]
    split
    · next h =>
      obtain ⟨ic, h1, h2⟩ := lacksOutEndpoint_iff.1 h
      exact .inr ⟨ix, b, ic, rfl, h1, h2, rfl⟩
    · exact .inl ⟨_, rfl⟩
  | _ => exact .inl ⟨_, rfl⟩

/-- A next state comes from a running block, keeps the configuration and the port, and adds one output. -/
theorem exec_next (h : exec i s = .next t) :
    s.Running ∧ t.config = s.config ∧ t.port = s.port ∧ ∃ o, t.trace = o :: s.trace := by
  rcases exec_performs i s with ⟨f, hf⟩ | ⟨ix, b, ic, -, -, -, hf⟩ <;> rw [hf] at h
  · obtain ⟨hr, rfl⟩ := perform_next h
    exact ⟨hr, rfl, rfl, _, rfl⟩
  · simp only [unlessFaulted] at h
    split at h <;> cases h

/-- out_data with an OUT endpoint, or with a bad index, is performed. -/
theorem exec_outData {b : Bytes} (h : lacksOutEndpoint s.config ix = false) :
    exec (.outData ix b) s = perform s (onInterface ix (outDataOn ix b)) := by
  simp [exec, execOutData, h]

/-- A next state of out_data. -/
theorem exec_outData_next {b : Bytes} (h : exec (.outData ix b) s = .next t) :
    s.Running ∧ lacksOutEndpoint s.config ix = false ∧
      t = commit s (onInterface ix (outDataOn ix b) s.config s.block) := by
  cases hl : lacksOutEndpoint s.config ix with
  | false => rw [exec_outData hl] at h; obtain ⟨h1, h2⟩ := perform_next h; exact ⟨h1, rfl, h2⟩
  | true =>
    simp only [exec, execOutData, hl, unlessFaulted, if_true] at h
    split at h <;> cases h

/-- A request by itself is one routed cell effect, the same in every state of one configuration. -/
theorem exec_request {w : Half} (h : requestIndex i = some w) :
    ∃ g : Config → Nat → IfConfig → Cell → CellEffect, ∀ s, exec i s = perform s (routed w (g s.config)) := by
  cases i with
  | getReport tc id w' l => cases h; exact ⟨fun c => getReportOn c tc id l, fun _ => rfl⟩
  | getIdle id w' l => cases h; exact ⟨fun _ => getIdleOn id l, fun _ => rfl⟩
  | getProtocol w' l => cases h; exact ⟨fun c => getProtocolByteOn c l, fun _ => rfl⟩
  | setReport tc id w' l d => cases h; exact ⟨fun c => setReportOn c tc id d, fun _ => rfl⟩
  | setIdle r id w' => cases h; exact ⟨fun _ => setIdleOn r id, fun _ => rfl⟩
  | setProtocol v w' => cases h; exact ⟨fun c => setProtocolOn c v, fun _ => rfl⟩
  | getDescriptorHid w' l => cases h; exact ⟨fun _ _ ic cell => answer l ic.hidDesc cell, fun _ => rfl⟩
  | getDescriptorReport w' l => cases h; exact ⟨fun _ _ ic cell => answer l ic.reportDesc cell, fun _ => rfl⟩
  | getDescriptorPhysical w' l => cases h; exact ⟨fun _ _ _ cell => stall .unsupportedRequest cell, fun _ => rfl⟩
  | writeReport | readReport | getProtocolCall | poll | outData | tick | reset | setup => cases h

/-- Exactly the SETUP operations have a `wIndex` of their own (R74). -/
theorem requestIndex_isSome : (requestIndex i).isSome = true ↔ i.format = .setup := by
  cases i <;> simp [requestIndex, Instr.format]

/-- A next state has as many cells as the state before. -/
theorem exec_next_length (h : exec i s = .next t) : t.block.cells.length = s.block.cells.length := by
  cases i with
  | setup p d =>
    simp only [exec, execSetup] at h
    split at h <;> (obtain ⟨-, rfl⟩ := perform_next h) <;> first | rfl | exact routed_length ..
  | outData ix b => obtain ⟨-, -, rfl⟩ := exec_outData_next h; exact onInterface_length ..
  | writeReport | readReport | getProtocolCall => obtain ⟨-, rfl⟩ := perform_next h; exact onInterface_length ..
  | poll | tick | reset => obtain ⟨-, rfl⟩ := perform_next h; exact serviceFrom_length ..
  | _ => obtain ⟨-, rfl⟩ := perform_next h; exact routed_length ..

/-- The SETUP format holds the packet's request (R79). -/
theorem decode_setup (rc : ReqCode) (p : SetupPacket) (data : Bytes) :
    decode rc ⟨.setup, p.wire ++ data⟩ = match rc.select p.key with
      | none => .error .notHidRequest
      | some r => .ok (requestInstr r p data) := by
  cases hs : rc.select p.key <;> simp only [decode, decodeSetup, parse?_wire, hs]

end Sys2Proof.Machine
end

