-- ==== Sys2Proof/Laws/Frame.lean ====
section
/-! SUPPORT. Laws/Frame.lean: fields of the access table (10_state.md R35): what a cell effect leaves alone on one cell,
the shared operations leave alone on every cell. -/

namespace Sys2Proof.Machine

variable {s : State} {f : Field} {cell cell' cell'' : Cell}

/-! ### What holds of one cell effect holds of every cell -/

theorem onInterface_cell {ix j : Nat} {g : IfConfig → Cell → Except FaultReason CellEffect} {P : Cell → Cell → Prop}
    (hrefl : ∀ c, P c c) (hg : ∀ ic cell e, g ic cell = .ok e → P cell e.cell) (h1 : s.block.cells[j]? = some cell)
    (h2 : (onInterface ix g s.config s.block).block.cells[j]? = some cell') : P cell cell' := by
  rcases onInterface_cases ix g s.config s.block with ⟨r, he⟩ | ⟨ic', c1, e, a1, a2, he', he⟩ <;> rw [he] at h2
  · cases h1.symm.trans h2; exact hrefl _
  · have ho := onlyCellBecomes_store (s := s) ⟨a1, a2⟩ e
    by_cases hj : j = ix
    · subst hj
      cases ho.2.2.1.symm.trans h2
      cases a2.symm.trans h1
      exact hg _ _ _ he'
    · cases h1.symm.trans ((ho.2.2.2 j hj).symm.trans h2); exact hrefl _

theorem routed_cell {w : Half} {j : Nat} {g : Nat → IfConfig → Cell → CellEffect} {P : Cell → Cell → Prop}
    (hrefl : ∀ c, P c c) (hg : ∀ i ic cell, P cell (g i ic cell).cell) (h1 : s.block.cells[j]? = some cell)
    (h2 : (routed w g s.config s.block).block.cells[j]? = some cell') : P cell cell' := by
  rcases routed_cases w g s.config s.block with he | ⟨ix, ic', c1, -, a1, a2, he⟩ <;> rw [he] at h2
  · cases h1.symm.trans h2; exact hrefl _
  · have ho := onlyCellBecomes_store (s := s) ⟨a1, a2⟩ (g ix ic' c1)
    by_cases hj : j = ix
    · subst hj
      cases ho.2.2.1.symm.trans h2
      cases a2.symm.trans h1
      exact hg _ _ _
    · cases h1.symm.trans ((ho.2.2.2 j hj).symm.trans h2); exact hrefl _

theorem onEveryInterface_cell {j : Nat} {g : Nat → IfConfig → Cell → Cell × List Event} {P : Cell → Cell → Prop}
    (hrefl : ∀ c, P c c) (hg : ∀ i ic cell, P cell (g i ic cell).1) (h1 : s.block.cells[j]? = some cell)
    (h2 : (onEveryInterface g s.config s.block).block.cells[j]? = some cell') : P cell cell' := by
  rcases serviceFrom_cases (g := g) (i := 0) h2 with ⟨-, h⟩ | ⟨ic', c1, -, a2, he⟩
  · cases h1.symm.trans h; exact hrefl _
  · cases h1.symm.trans a2; rw [he]; exact hg _ _ _

/-- A control request leaves the fault register alone (R150). -/
theorem routed_fault (w : Half) (g : Nat → IfConfig → Cell → CellEffect) (c : Config) (b : Block) :
    (routed w g c b).block.fault = b.fault := by
  rcases routed_cases w g c b with he | ⟨ix, ic', c1, -, a1, a2, he⟩ <;> rw [he] <;> rfl

/-! ### Fields of one cell -/

theorem Field.same_refl (f : Field) (c : Cell) : f.Same c c := by cases f <;> simp [Field.Same]

theorem Field.same_trans (h1 : f.Same cell cell') (h2 : f.Same cell' cell'') : f.Same cell cell'' := by
  cases f <;> simp_all [Field.Same]

theorem Field.same_setBuf {t : ReportType} {b : Buffer} (h : f ≠ .buf t) : f.Same cell (cell.setBuf t b) := by
  cases f with
  | buf u => simp only [Field.Same]; rw [Cell.buf_setBuf_of_ne]; rintro rfl; exact h rfl
  | _ => simp [Field.Same]

/-- A timer write leaves a field alone when it keeps that field of the timer. -/
theorem Field.same_setTimer {id : ReportId} {x : Timer}
    (h1 : f = .idleRate → x.idleRate = (cell.timer id).idleRate)
    (h2 : f = .countdown → x.countdown = (cell.timer id).countdown)
    (h3 : f = .lastReport → x.lastReport = (cell.timer id).lastReport)
    (h4 : f = .due → x.due = (cell.timer id).due) : f.Same cell (cell.setTimer id x) := by
  cases f with
  | idleRate | countdown | lastReport | due =>
    intro j
    by_cases hj : j = id
    · subst hj
      simp_all
    · simp [hj]
  | _ => simp [Field.Same]

theorem Field.same_tickTimers (h1 : f ≠ .countdown) (h2 : f ≠ .due) (i : Nat) (e : Word) (ids : List ReportId)
    (cell : Cell) : f.Same cell (tickTimers i e ids cell).1 := by
  induction ids generalizing cell with
  | nil => exact same_refl _ _
  | cons j ids ih =>
    exact same_trans (same_setTimer (fun _ => by simp) (fun h => absurd h h1) (fun _ => by simp) (fun h => absurd h h2))
      (ih _)

theorem Field.same_setRates (h1 : f ≠ .idleRate) (h2 : f ≠ .countdown) (h3 : f ≠ .due) (r : Byte) (ids : List ReportId)
    (cell : Cell) : f.Same cell (setRates r ids cell) := by
  induction ids generalizing cell with
  | nil => exact same_refl _ _
  | cons j ids ih =>
    exact same_trans (same_setTimer (id := j) (x := (cell.timer j).setRate r) (fun h => absurd h h1)
      (fun h => absurd h h2) (fun _ => rfl) (fun h => absurd h h3)) (ih _)

theorem Field.same_pollCell (h1 : f ≠ .buf .input) (h2 : f ≠ .countdown) (h3 : f ≠ .lastReport) (h4 : f ≠ .due)
    (accept : List Bool) (i : Nat) (ic : IfConfig) (cell : Cell) : f.Same cell (pollCell accept i ic cell).1 := by
  have hset : ∀ (c : Cell) (id : ReportId) (b : Bytes), f.Same c (c.setTimer id ((c.timer id).noteSent b)) :=
    fun c id b => same_setTimer (fun _ => rfl) (fun h => absurd h h2) (fun h => absurd h h3) (fun h => absurd h h4)
  simp only [pollCell]
  split
  · exact same_refl _ _
  · split
    · simp only [sent]
      split
      · split
        · exact same_trans (same_setBuf h1) (hset _ _ _)
        · exact hset _ _ _
      · exact hset _ _ _
    · exact same_refl _ _

/-! ### Fields of the state tuple -/

theorem Field.unchanged_refl (f : Field) (b : Block) : f.Unchanged b b :=
  ⟨fun _ => rfl, rfl, fun i c c' h1 h2 => by cases h1.symm.trans h2; exact same_refl _ _⟩

theorem Field.unchanged_onInterface {ix : Nat} {g : IfConfig → Cell → Except FaultReason CellEffect} (hf : f ≠ .fault)
    (hg : ∀ ic cell e, g ic cell = .ok e → f.Same cell e.cell) :
    f.Unchanged s.block (onInterface ix g s.config s.block).block :=
  ⟨fun h => absurd h hf, onInterface_length .., fun _ _ _ => onInterface_cell (same_refl f) hg⟩

theorem Field.unchanged_routed {w : Half} {g : Nat → IfConfig → Cell → CellEffect}
    (hg : ∀ i ic cell, f.Same cell (g i ic cell).cell) : f.Unchanged s.block (routed w g s.config s.block).block :=
  ⟨fun _ => routed_fault .., routed_length .., fun _ _ _ => routed_cell (same_refl f) hg⟩

theorem Field.unchanged_onEveryInterface {g : Nat → IfConfig → Cell → Cell × List Event}
    (hg : ∀ i ic cell, f.Same cell (g i ic cell).1) :
    f.Unchanged s.block (onEveryInterface g s.config s.block).block :=
  ⟨fun _ => rfl, serviceFrom_length .., fun _ _ _ => onEveryInterface_cell (same_refl f) hg⟩

end Sys2Proof.Machine
end

