-- ==== Sys2Proof/Laws/Invariant.lean ====
section
/-! SUPPORT. Laws/Invariant.lean: the shared operations keep the state invariant when the cell effect they are given
keeps the cell's, and every meaning's cell effect does (10_state.md R22, R26, R31). -/

namespace Sys2Proof.Machine

variable {s : State}

/-! ### The shared operations -/

theorem State.inv_onInterface {ix : Nat} {g : IfConfig → Cell → Except FaultReason CellEffect} (h : s.Inv)
    (hg : ∀ ic cell e, ic.Wf → cell.Inv ic → g ic cell = .ok e → e.cell.Inv ic) :
    (commit s (onInterface ix g s.config s.block)).Inv := by
  refine State.inv_of_cells h.1 ((onInterface_length ..).trans h.2.1) (fun j ic cell hc => ?_)
  rcases onInterface_cases ix g s.config s.block with ⟨r, he⟩ | ⟨ic', cell', e, h1, h2, he', he⟩ <;> rw [he] at hc
  · exact State.inv_cell h hc
  · have ho := onlyCellBecomes_store (s := s) ⟨h1, h2⟩ e
    by_cases hj : j = ix
    · subst hj
      cases ho.2.2.1.symm.trans hc.2
      cases h1.symm.trans hc.1
      exact hg ic cell' e (State.inv_ifc h h1) (State.inv_cell h ⟨h1, h2⟩) he'
    · exact State.inv_cell h ⟨hc.1, (ho.2.2.2 j hj).symm.trans hc.2⟩

theorem State.inv_routed {w : Half} {g : Nat → IfConfig → Cell → CellEffect} (h : s.Inv)
    (hg : ∀ i ic cell, ic.Wf → cell.Inv ic → (g i ic cell).cell.Inv ic) :
    (commit s (routed w g s.config s.block)).Inv := by
  refine State.inv_of_cells h.1 ((routed_length ..).trans h.2.1) (fun j ic cell hc => ?_)
  rcases routed_cases w g s.config s.block with he | ⟨ix, ic', cell', -, h1, h2, he⟩ <;> rw [he] at hc
  · exact State.inv_cell h hc
  · have ho := onlyCellBecomes_store (s := s) ⟨h1, h2⟩ (g ix ic' cell')
    by_cases hj : j = ix
    · subst hj
      cases ho.2.2.1.symm.trans hc.2
      cases h1.symm.trans hc.1
      exact hg j ic cell' (State.inv_ifc h h1) (State.inv_cell h ⟨h1, h2⟩)
    · exact State.inv_cell h ⟨hc.1, (ho.2.2.2 j hj).symm.trans hc.2⟩

theorem State.inv_onEveryInterface {g : Nat → IfConfig → Cell → Cell × List Event} (h : s.Inv)
    (hg : ∀ i ic cell, ic.Wf → cell.Inv ic → (g i ic cell).1.Inv ic) :
    (commit s (onEveryInterface g s.config s.block)).Inv := by
  refine State.inv_of_cells h.1 ((serviceFrom_length ..).trans h.2.1) (fun j ic cell hc => ?_)
  rcases serviceFrom_cases (g := g) (i := 0) hc.2 with ⟨h1, -⟩ | ⟨ic', cell', h1, h2, he⟩ <;> cases hc.1.symm.trans h1
  rw [he]
  exact hg _ ic cell' (State.inv_ifc h h1) (State.inv_cell h ⟨h1, h2⟩)

/-! ### The cell effects of the meanings -/

variable {ic : IfConfig} {cell : Cell} {e : CellEffect} {c : Config} {i ix : Nat} {b : Bytes} {tc id : Byte}

theorem writeReportOn_inv (h : cell.Inv ic) (he : writeReportOn b ic cell = .ok e) : e.cell.Inv ic := by
  simp only [writeReportOn] at he
  split at he
  · cases he
  · next id hv => cases he; exact Cell.inv_setBuf h (Buffer.inv_write (h.buf _) hv)

theorem readReportOn_inv (h : cell.Inv ic) (he : readReportOn ic cell = .ok e) : e.cell.Inv ic := by
  simp only [readReportOn] at he
  split at he
  · cases he; exact h
  · next hv => cases he; exact Cell.inv_setBuf h (Buffer.inv_read (h.buf _) hv)

theorem getProtocolOn_inv (h : cell.Inv ic) (he : getProtocolOn ic cell = .ok e) : e.cell.Inv ic := by
  cases he; exact h

theorem outDataOn_inv (h : cell.Inv ic) (he : outDataOn ix b ic cell = .ok e) : e.cell.Inv ic := by
  simp only [outDataOn] at he
  split at he
  · cases he; exact h
  · next id hv => cases he; exact Cell.inv_setBuf h (Buffer.inv_write (h.buf _) hv)

theorem getReportOn_inv {l : Half} (h : cell.Inv ic) : (getReportOn c tc id l i ic cell).cell.Inv ic := by
  simp only [getReportOn]
  repeat' split
  all_goals first | exact h | exact Cell.inv_setBuf h (Buffer.inv_take (h.buf _))

theorem storeReport_inv {t : ReportType} (h : cell.Inv ic) : (storeReport i t id b ic cell).cell.Inv ic := by
  simp only [storeReport]
  split
  · split
    · next hv => exact Cell.inv_setBuf h (Buffer.inv_write (h.buf _) hv)
    · exact h
  · exact h

theorem setReportOn_inv (h : cell.Inv ic) : (setReportOn c tc id b i ic cell).cell.Inv ic := by
  simp only [setReportOn]
  split
  · exact h
  · exact h
  · exact storeReport_inv h
  · exact storeReport_inv h

theorem getIdleOn_inv {l : Half} (h : cell.Inv ic) : (getIdleOn id l i ic cell).cell.Inv ic := by
  simp only [getIdleOn]
  repeat' split
  all_goals exact h

theorem setIdleOn_inv {r : Byte} (hw : ic.Wf) (h : cell.Inv ic) : (setIdleOn r id i ic cell).cell.Inv ic := by
  have hs := (hw.1 .input (mem_all _)).1
  simp only [setIdleOn]
  split
  · refine Cell.inv_setRates hs ?_ (fun _ h => h)
    split
    · next hu => exact Cell.inv_setIdleDefault h (fun h => by rw [hu] at h; cases h)
    · exact h
  · split
    · next h1 => exact Cell.inv_setRates hs h (fun a ha => by rw [List.mem_singleton.1 ha]; exact h1.2)
    · exact h

theorem setProtocolOn_inv {v : Half} (h : cell.Inv ic) : (setProtocolOn c v i ic cell).cell.Inv ic := by
  simp only [setProtocolOn]
  split
  · next hb =>
    split
    · exact Cell.inv_setProtocol h (fun h => by rw [hb] at h; cases h)
    · exact h
  · exact h

/-- A transmission of the report an interface would send keeps its cell's invariant. -/
theorem sent_inv {x : Candidate} (hw : ic.Wf) (h : cell.Inv ic) (hx : candidate ic cell = some x) :
    (sent x cell).Inv ic := by
  have hs := (hw.1 .input (mem_all _)).1
  simp only [candidate] at hx
  split at hx
  · simp only [dueCandidate] at hx
    split at hx
    · cases hx
    · next j hj =>
      simp only [Option.map_eq_some_iff] at hx
      obtain ⟨b, hb, rfl⟩ := hx
      have hm := List.mem_of_find?_eq_some hj
      exact Cell.inv_setTimer hs h hm (Timer.inv_noteSent ((h.timer hm).2.2.2 b hb))
  · simp only [freshCandidate] at hx
    split at hx
    · cases hx
    · next j js hj =>
      simp only [Option.map_eq_some_iff] at hx
      obtain ⟨b, hb, rfl⟩ := hx
      have hv := Buffer.valid_of_get (h.buf .input) hb
      have hr : (cell.buf .input).read = some (b, ⟨Assoc.erase (cell.buf .input).slot j, js⟩) := by
        simp only [Buffer.read, hj, hb, Option.map_some]
      simp only [sent, hr]
      exact Cell.inv_setTimer hs (Cell.inv_setBuf h (Buffer.inv_read (h.buf .input) hr)) (validReport_mem hv)
        (Timer.inv_noteSent hv)

theorem pollCell_inv {accept : List Bool} (hw : ic.Wf) (h : cell.Inv ic) : (pollCell accept i ic cell).1.Inv ic := by
  simp only [pollCell]
  split
  · exact h
  · next x hx =>
    split
    · exact sent_inv hw h hx
    · exact h

theorem tickCell_inv {ms : Word} (hw : ic.Wf) (h : cell.Inv ic) : (tickCell ms i ic cell).1.Inv ic :=
  Cell.inv_tickTimers (hw.1 .input (mem_all _)).1 h (fun _ h => h)

theorem resetTimers_inv {ids : List ReportId} (hs : Assoc.Sorted (ic.sizes .input)) (h : cell.Inv ic)
    (hids : ∀ id ∈ ids, id ∈ ic.ids .input) : (resetTimers ic ids cell).Inv ic := by
  induction ids generalizing cell with
  | nil => exact h
  | cons j ids ih =>
    exact ih (Cell.inv_setTimer hs h (hids j (by simp)) Timer.inv_powerOn) (fun a ha => hids a (by simp [ha]))

theorem resetCell_inv (hw : ic.Wf) (h : cell.Inv ic) : (resetCell i ic cell).1.Inv ic := by
  simp only [resetCell]
  refine resetTimers_inv (hw.1 .input (mem_all _)).1 ?_ (fun _ h => h)
  refine Cell.inv_setBuf (Cell.inv_setBuf (Cell.inv_setBuf ?_ Buffer.inv_empty) Buffer.inv_empty) Buffer.inv_empty
  have := Cell.inv_setProtocol (p := .report) h (fun _ => rfl)
  split
  · exact Cell.inv_setIdleDefault this (fun _ => rfl)
  · exact this

end Sys2Proof.Machine
end

