-- ==== Sys2Proof/Laws/PerInstr.lean ====
section
/-! SUPPORT. Laws/PerInstr.lean: statements made once per constructor. Family `TableRow`: the encoded operation has the
fixed bits of its row of spec/opcode_table.json, under the default `REQ_CODE`. -/

namespace Sys2Proof.Laws.TableRow

/-- The mask and the match value of an operation's row, copied from the table. -/
def row : Instr → Word × Word
  | .getReport _ _ _ _ => (0x0000FFFF, 0x000001A1)
  | .getIdle _ _ _ => (0x0000FFFF, 0x000002A1)
  | .getProtocol _ _ => (0x0000FFFF, 0x000003A1)
  | .setReport _ _ _ _ _ => (0x0000FFFF, 0x00000921)
  | .setIdle _ _ _ => (0x0000FFFF, 0x00000A21)
  | .setProtocol _ _ => (0x0000FFFF, 0x00000B21)
  | .getDescriptorHid _ _ => (0xFF00FFFF, 0x21000681)
  | .getDescriptorReport _ _ => (0xFF00FFFF, 0x22000681)
  | .getDescriptorPhysical _ _ => (0xFF00FFFF, 0x23000681)
  | .writeReport _ _ => (0xFF, 0x01)
  | .readReport _ => (0xFF, 0x02)
  | .getProtocolCall _ => (0xFF, 0x03)
  | .poll _ => (0xFF, 0x10)
  | .outData _ _ => (0xFF, 0x11)
  | .tick _ => (0xFF, 0x12)
  | .reset => (0xFF, 0x13)
  | .setup _ _ => (0xFF, 0x20)

/-- The first 32 bits of an encoding, first byte least significant; bytes it does not have are zero. -/
def leading (bs : Bytes) : Word := wordOf (bs.getD 0 0) (bs.getD 1 0) (bs.getD 2 0) (bs.getD 3 0)

/-- The fixed bits of the row stand in the encoding. -/
def Statement (i : Instr) : Prop := leading (encodeBytes ReqCode.hid111 i) &&& (row i).1 = (row i).2

theorem byteMask_bit {k : Nat} (hk : k < 32) : (0xFF : Word)[k] = decide (k < 8) := by
  revert k; decide

/-- The low byte of the leading word is the first byte. -/
theorem leading_and_byteMask (b : Byte) (bs : Bytes) : leading (b :: bs) &&& 0xFF = b.setWidth 32 := by
  ext k hk
  rw [BitVec.getElem_and, byteMask_bit hk]
  simp only [leading, wordOf, BitVec.getElem_or, BitVec.getElem_setWidth, BitVec.getElem_shiftLeft]
  by_cases h : k < 8
  · have h1 : k < 16 := by omega
    have h2 : k < 24 := by omega
    simp [h, h1, h2]
  · simp [h, BitVec.getLsbD_of_ge b k (by omega)]

/-- The leading word of a packet is its decode key. -/
theorem leading_wire (p : SetupPacket) (data : Bytes) : leading (p.wire ++ data) = p.key := rfl

theorem classRow {p : SetupPacket} {data : Bytes} {v : Word} (h : classValue p.bmRequestType p.bRequest = v) :
    leading (p.wire ++ data) &&& 0x0000FFFF = v := by
  rw [leading_wire, key_and_classMask, h]

theorem descriptorRow {p : SetupPacket} {data : Bytes} {v : Word}
    (h : descriptorValue p.bmRequestType p.bRequest (hiByte p.wValue) = v) :
    leading (p.wire ++ data) &&& 0xFF00FFFF = v := by
  rw [leading_wire, key_and_descriptorMask, h]

theorem getReport (tc id : Byte) (wIndex wLength : Half) : Statement (.getReport tc id wIndex wLength) :=
  classRow (show classValue 0xA1 0x01 = 0x000001A1 by decide)

theorem getIdle (id : Byte) (wIndex wLength : Half) : Statement (.getIdle id wIndex wLength) :=
  classRow (show classValue 0xA1 0x02 = 0x000002A1 by decide)

theorem getProtocol (wIndex wLength : Half) : Statement (.getProtocol wIndex wLength) :=
  classRow (show classValue 0xA1 0x03 = 0x000003A1 by decide)

theorem setReport (tc id : Byte) (wIndex wLength : Half) (data : Bytes) :
    Statement (.setReport tc id wIndex wLength data) :=
  classRow (show classValue 0x21 0x09 = 0x00000921 by decide)

theorem setIdle (rate id : Byte) (wIndex : Half) : Statement (.setIdle rate id wIndex) :=
  classRow (show classValue 0x21 0x0A = 0x00000A21 by decide)

theorem setProtocol (wValue wIndex : Half) : Statement (.setProtocol wValue wIndex) :=
  classRow (show classValue 0x21 0x0B = 0x00000B21 by decide)

theorem getDescriptorHid (wIndex wLength : Half) : Statement (.getDescriptorHid wIndex wLength) :=
  descriptorRow (show descriptorValue 0x81 0x06 (hiByte (halfOf 0 0x21)) = 0x21000681 by decide)

theorem getDescriptorReport (wIndex wLength : Half) : Statement (.getDescriptorReport wIndex wLength) :=
  descriptorRow (show descriptorValue 0x81 0x06 (hiByte (halfOf 0 0x22)) = 0x22000681 by decide)

theorem getDescriptorPhysical (wIndex wLength : Half) : Statement (.getDescriptorPhysical wIndex wLength) :=
  descriptorRow (show descriptorValue 0x81 0x06 (hiByte (halfOf 0 0x23)) = 0x23000681 by decide)

theorem writeReport (ix : Nat) (b : Bytes) : Statement (.writeReport ix b) := leading_and_byteMask _ _

theorem readReport (ix : Nat) : Statement (.readReport ix) := leading_and_byteMask _ _

theorem getProtocolCall (ix : Nat) : Statement (.getProtocolCall ix) := leading_and_byteMask _ _

theorem poll (accept : List Bool) : Statement (.poll accept) := leading_and_byteMask _ _

theorem outData (ix : Nat) (b : Bytes) : Statement (.outData ix b) := leading_and_byteMask _ _

theorem tick (elapsedMs : Word) : Statement (.tick elapsedMs) := leading_and_byteMask _ _

theorem reset : Statement .reset := leading_and_byteMask _ _

theorem setup (pkt : SetupPacket) (data : Bytes) : Statement (.setup pkt data) := leading_and_byteMask _ _

end Sys2Proof.Laws.TableRow
end

