-- ==== Sys2Proof/Tests/Slice0.lean ====
section
/-! SUPPORT. Tests/Slice0.lean: small tests, each of one step. Expected values are those of spec/95_test_vectors.md
(the vector is named in the test's comment) or are read from the rule the comment names. After them, for every statement
with hypotheses, a witness: a concrete state and operands that meet all of them together. -/

namespace Sys2Proof.Tests

open Sys2Proof.Machine

/-! ### Helpers -/

/-- Config K at power-on. -/
def kbd : State := State.powerOn Config.vectorK

/-- Config C at power-on. -/
def cmp : State := State.reset

/-- `K8(x)` of 95_test_vectors.md. -/
def k8 (x : Byte) : Bytes := [x, 0, 0, 0, 0, 0, 0, 0]

/-- The next state, or the reset state where there is none. -/
def after (o : Host.Outcome State Fault Refusal) : State :=
  match o with
  | .next t => t
  | _ => State.reset

/-- The state after one operation. -/
def State.did (s : State) (i : Instr) : State := after (exec i s)

/-- What a step emitted; none where it stopped. -/
def emitted (o : Host.Outcome State Fault Refusal) : Option (List Event × Result) :=
  match o with
  | .next t => t.trace.head?.map (fun x => (x.events, x.result))
  | _ => none

/-- Why a step stopped. -/
def stopped (o : Host.Outcome State Fault Refusal) : Option Fault :=
  match o with
  | .fault r => some r
  | _ => none

/-- Why a step was refused. -/
def refusal (o : Host.Outcome State Fault Refusal) : Option Refusal :=
  match o with
  | .refused r => some r
  | _ => none

/-- The step answered a next state. -/
def completes (o : Host.Outcome State Fault Refusal) : Bool :=
  match o with
  | .next _ => true
  | _ => false

/-- A cell of the next state. -/
def cellAfter (o : Host.Outcome State Fault Refusal) (i : Nat) : Option Cell := (after o).block.cells[i]?

/-- The cell of an interface of a state. -/
def cellOf (s : State) (i : Nat) : Cell := s.block.cells.getD i (powerOnCell IfConfig.keyboard)

/-- The state with another cell at one interface. -/
def putCell (s : State) (i : Nat) (cell : Cell) : State := { s with block := s.block.setCell i cell }

/-- The state with another Idle Timer. -/
def putTimer (s : State) (i : Nat) (id : ReportId) (t : Timer) : State := putCell s i ((cellOf s i).setTimer id t)

/-- The state with the fault register set. -/
def faulted (s : State) : State := { s with block := s.block.setFault .configError }

/-- Config K with short descriptors and a consuming GET_REPORT. -/
def small : State := State.powerOn
  ⟨[{ IfConfig.keyboard with reportDesc := [1, 2, 3], hidDesc := [9, 0x21] }], true, ReqCode.hid111⟩

/-! ### Well-formedness: an ill-formed term for each check -/

theorem test_wf_writeReport : (Instr.writeReport (2 ^ 32) []).wellFormed = false := by decide
theorem test_wf_readReport : (Instr.readReport (2 ^ 32)).wellFormed = false := by decide
theorem test_wf_getProtocolCall : (Instr.getProtocolCall (2 ^ 32)).wellFormed = false := by decide
theorem test_wf_outData : (Instr.outData (2 ^ 32) []).wellFormed = false := by decide
theorem test_wf_last_index : (Instr.readReport (2 ^ 32 - 1)).wellFormed = true := by decide

/-! ### Decoding: words written out from the encodings -/

/-- The decoded operation, none where the decoder rejects. -/
def decoded (o : Presented) : Option Instr := (decode ReqCode.hid111 o).toOption

/-- Why the decoder rejects. -/
def rejection (o : Presented) : Option DecodeError :=
  match decode ReqCode.hid111 o with
  | .ok _ => none
  | .error e => some e

/-- R73, R74; vectors Q4, Q25, Q27. -/
theorem test_decode_gets :
    decoded ⟨.setup, [0xA1, 0x01, 0x00, 0x01, 0x00, 0x00, 0x02, 0x00]⟩ = some (.getReport 1 0 0 2) ∧
    decoded ⟨.setup, [0xA1, 0x02, 0x02, 0x00, 0x01, 0x00, 0x01, 0x00]⟩ = some (.getIdle 2 1 1) ∧
    decoded ⟨.setup, [0xA1, 0x03, 0x00, 0x00, 0x00, 0x00, 0x01, 0x00]⟩ = some (.getProtocol 0 1) := by decide

/-- R73, R74; vectors Q14, Q23, Q33. -/
theorem test_decode_sets :
    decoded ⟨.setup, [0x21, 0x09, 0x03, 0x03, 0x01, 0x00, 0x02, 0x00, 0x03, 0x55]⟩ =
      some (.setReport 3 3 1 2 [0x03, 0x55]) ∧
    decoded ⟨.setup, [0x21, 0x0A, 0x02, 0x01, 0x01, 0x00, 0x00, 0x00]⟩ = some (.setIdle 1 2 1) ∧
    decoded ⟨.setup, [0x21, 0x0B, 0x00, 0x01, 0x00, 0x00, 0x00, 0x00]⟩ = some (.setProtocol 0x0100 0) := by decide

/-- R73, R77; vectors Q38, Q41, Q39. -/
theorem test_decode_descriptors :
    decoded ⟨.setup, [0x81, 0x06, 0x00, 0x21, 0x00, 0x00, 0x09, 0x00]⟩ = some (.getDescriptorHid 0 9) ∧
    decoded ⟨.setup, [0x81, 0x06, 0x00, 0x22, 0x01, 0x00, 0x40, 0x00]⟩ = some (.getDescriptorReport 1 0x40) ∧
    decoded ⟨.setup, [0x81, 0x06, 0x00, 0x23, 0x00, 0x00, 0x09, 0x00]⟩ = some (.getDescriptorPhysical 0 9) := by decide

/-- R80: op codes 01, 02, 03. -/
theorem test_decode_calls :
    decoded ⟨.call, [0x01, 0x01, 0x00, 0x00, 0x00, 0x01, 0x0A, 0x0B]⟩ = some (.writeReport 1 [0x01, 0x0A, 0x0B]) ∧
    decoded ⟨.call, [0x02, 0x03, 0x00, 0x00, 0x00]⟩ = some (.readReport 3) ∧
    decoded ⟨.call, [0x03, 0x00, 0x01, 0x00, 0x00]⟩ = some (.getProtocolCall 0x100) := by decide

/-- R81: op codes 10, 11, 12, 13, 20. -/
theorem test_decode_events :
    decoded ⟨.event, [0x10, 0x00, 0x01]⟩ = some (.poll [false, true]) ∧
    decoded ⟨.event, [0x11, 0x00, 0x00, 0x00, 0x00, 0x05]⟩ = some (.outData 0 [0x05]) ∧
    decoded ⟨.event, [0x12, 0xF4, 0x01, 0x00, 0x00]⟩ = some (.tick 500) ∧
    decoded ⟨.event, [0x13]⟩ = some .reset ∧
    decoded ⟨.event, [0x20, 0xA2, 0x01, 0x00, 0x01, 0x00, 0x00, 0x08, 0x00]⟩ =
      some (.setup ⟨0xA2, 0x01, 0x0100, 0, 8⟩ []) := by decide

/-- R82(a); vectors Q42, Q43, Q44, Q45, Q46. -/
theorem test_decode_not_hid :
    [[0xC1, 0x01, 0x00, 0x00, 0x00, 0x00, 0x01, 0x00], [0x21, 0x01, 0x00, 0x01, 0x00, 0x00, 0x08, 0x00],
      [0xA2, 0x01, 0x00, 0x01, 0x00, 0x00, 0x08, 0x00], [0x21, 0x05, 0x00, 0x00, 0x00, 0x00, 0x00, 0x00],
      [0x80, 0x06, 0x00, 0x02, 0x00, 0x00, 0xFF, 0x00]].map (fun b => rejection ⟨.setup, b⟩) =
      List.replicate 5 (some DecodeError.notHidRequest) := by decide

/-- Each way to be no operation, by name. -/
theorem test_decode_rejects :
    rejection ⟨.setup, [0xA1, 0x03, 0x00, 0x00, 0x00, 0x00, 0x01]⟩ = some .shortPacket ∧
    rejection ⟨.event, []⟩ = some .noOpCode ∧
    rejection ⟨.call, [0x04]⟩ = some (.unknownOpCode 0x04) ∧
    rejection ⟨.event, [0x02, 0x00, 0x00, 0x00, 0x00]⟩ = some (.unknownOpCode 0x02) ∧
    rejection ⟨.event, [0x12, 0x01]⟩ = some (.shortOperands 0x12) ∧
    rejection ⟨.call, [0x03, 0x00, 0x00, 0x00, 0x00, 0x00]⟩ = some (.trailingBytes 0x03) ∧
    rejection ⟨.event, [0x10, 0x02]⟩ = some (.badDraw 0x02) := by decide

/-- The rows of spec/opcode_table.json. -/
theorem test_decode_table_rows :
    [0x01A1, 0x02A1, 0x03A1, 0x0921, 0x0A21, 0x0B21].map (decodeTableWord 32) =
      [some (.getReport 0 0 0 0), some (.getIdle 0 0 0), some (.getProtocol 0 0), some (.setReport 0 0 0 0 []),
        some (.setIdle 0 0 0), some (.setProtocol 0 0)] ∧
    [0x21000681, 0x22000681, 0x23000681].map (decodeTableWord 32) =
      [some (.getDescriptorHid 0 0), some (.getDescriptorReport 0 0), some (.getDescriptorPhysical 0 0)] ∧
    [0x01, 0x02, 0x03, 0x10, 0x11, 0x12, 0x13, 0x20].map (decodeTableWord 8) =
      [some (.writeReport 0 []), some (.readReport 0), some (.getProtocolCall 0), some (.poll []),
        some (.outData 0 []), some (.tick 0), some .reset, some (.setup ⟨0, 0, 0, 0, 0⟩ [])] := by decide

/-- P2 step 1 and P3 step 8: the encoder writes the spec's words. -/
theorem test_encode :
    encode ReqCode.hid111 (.setIdle 0x19 0 1) = ⟨.setup, [0x21, 0x0A, 0x00, 0x19, 0x01, 0x00, 0x00, 0x00]⟩ ∧
    encode ReqCode.hid111 (.tick 1) = ⟨.event, [0x12, 0x01, 0x00, 0x00, 0x00]⟩ := by decide

/-! ### The written form (R84, R85) -/

/-- P2 step 1, P3 steps 2 and 4, P5 step 1. -/
theorem test_trace_lines :
    traceLine ReqCode.hid111 (.setIdle 0x19 0 1) = "usb setup 0x21 0x0A 0x1900 1 0" ∧
    traceLine ReqCode.hid111 (.writeReport 1 [0x01, 0x0A, 0x0B]) = "app write_report ix=1 bytes=01 0A 0B" ∧
    traceLine ReqCode.hid111 (.poll [true, true]) = "usb poll accept=11" ∧
    traceLine ReqCode.hid111 (.setReport 2 0 0 1 [0x02]) = "usb setup 0x21 0x09 0x0200 0 1 data=02" := by decide

/-- R85, row GET_DESCRIPTOR of type Report. -/
theorem test_pseudo : (Pseudo.getDescriptor 1 .report 64).expand ReqCode.hid111 = (⟨0x81, 0x06, 0x2200, 1, 64⟩, []) := by
  decide

/-! ### Application operations -/

/-- The state of vector B7. -/
def b7 : State := State.did cmp (.writeReport 1 [1, 0x0A, 0x0B])

/-- The state of vector B8. -/
def b8 : State := State.did b7 (.writeReport 1 [2, 0x0C, 0x0D])

/-- B8. -/
theorem test_writeReport_newest :
    emitted (exec (.writeReport 1 [2, 0x0C, 0x0D]) b7) = some ([], .ok) ∧
    (cellAfter (exec (.writeReport 1 [2, 0x0C, 0x0D]) b7) 1).map (·.input) =
      some ⟨[(1, [1, 0x0A, 0x0B]), (2, [2, 0x0C, 0x0D])], [2, 1]⟩ := by decide

/-- B4. -/
theorem test_writeReport_wrong_size :
    emitted (exec (.writeReport 0 [4, 0, 0]) kbd) = some ([], .fault .configError) ∧
    (after (exec (.writeReport 0 [4, 0, 0]) kbd)).block = ⟨kbd.block.cells, some .configError⟩ := by decide

/-- The state of vector B14. -/
def b14 : State := State.did kbd (.outData 0 [2])

/-- B14. -/
theorem test_readReport_takes :
    emitted (exec (.readReport 0) b14) = some ([], .report [2]) ∧ (after (exec (.readReport 0) b14)).block = kbd.block := by
  decide

/-- B13, B16. -/
theorem test_readReport_empty :
    emitted (exec (.readReport 0) kbd) = some ([], .wouldBlock) ∧
    emitted (exec (.readReport 3) kbd) = some ([], .fault .noSuchInterface) := by decide

/-- Config K after SET_PROTOCOL(Boot). -/
def boot : State := State.did kbd (.setProtocol 0 0)

/-- B18, B20. -/
theorem test_getProtocolCall :
    emitted (exec (.getProtocolCall 0) boot) = some ([], .protocol .boot) ∧
    emitted (exec (.getProtocolCall 1) cmp) = some ([], .protocol .report) := by decide

/-! ### Control requests -/

/-- The state of vector B1. -/
def b1 : State := State.did kbd (.writeReport 0 (k8 4))

/-- Q4, Q2: the response is cut to wLength and the report stays. -/
theorem test_getReport_peek :
    emitted (exec (.getReport 1 0 0 2) b1) = some ([], .data [4, 0]) ∧
    (after (exec (.getReport 1 0 0 2) b1)).block = b1.block := by decide

/-- Q9, and Q3 on a device that consumes. -/
theorem test_getReport_zero_and_consume :
    emitted (exec (.getReport 1 2 1 3) cmp) = some ([], .data [2, 0, 0]) ∧
    emitted (exec (.getReport 1 0 0 8) (State.did small (.writeReport 0 (k8 4)))) = some ([], .data (k8 4)) ∧
    (after (exec (.getReport 1 0 0 8) (State.did small (.writeReport 0 (k8 4))))).block = small.block := by decide

/-- Q14. -/
theorem test_setReport_stores :
    emitted (exec (.setReport 3 3 1 2 [3, 0x55]) cmp) = some ([.setReport 1 .feature 3 [3, 0x55]], .ack) ∧
    (cellAfter (exec (.setReport 3 3 1 2 [3, 0x55]) cmp) 1).map (·.feature) = some ⟨[(3, [3, 0x55])], [3]⟩ := by decide

/-- Q12, Q15, Q16: type Input, then the leading byte, then the ID. -/
theorem test_setReport_stalls :
    emitted (exec (.setReport 1 0 0 8 (k8 4)) kbd) = some ([], .stall .malformedRequest) ∧
    emitted (exec (.setReport 3 3 1 2 [4, 0x55]) cmp) = some ([], .stall .malformedRequest) ∧
    emitted (exec (.setReport 3 4 1 2 [4, 0x55]) cmp) = some ([], .stall .unsupportedReportId) := by decide

/-- The state of vector Q22. -/
def q22 : State := State.did cmp (.setIdle 0x19 0 1)

/-- The state of vector Q23. -/
def q23 : State := State.did q22 (.setIdle 1 2 1)

/-- Q17, Q24, Q25. -/
theorem test_getIdle :
    emitted (exec (.getIdle 0 0 1) kbd) = some ([], .data [0x7D]) ∧
    emitted (exec (.getIdle 0 1 1) q23) = some ([], .data [0x19]) ∧
    emitted (exec (.getIdle 2 1 1) q23) = some ([], .data [1]) := by decide

/-- Q19, Q20. -/
theorem test_getIdle_stalls :
    emitted (exec (.getIdle 3 1 1) cmp) = some ([], .stall .unsupportedReportId) ∧
    emitted (exec (.getIdle 1 0 1) kbd) = some ([], .stall .unsupportedReportId) := by decide

/-- Q22, Q23. -/
theorem test_setIdle :
    (cellAfter (exec (.setIdle 0x19 0 1) cmp) 1).map (fun c => (c.idleDefault, c.timer 1, c.timer 2)) =
      some (25, ⟨25, 100, none, false⟩, ⟨25, 100, none, false⟩) ∧
    (cellAfter (exec (.setIdle 1 2 1) q22) 1).map (fun c => (c.idleDefault, c.timer 1, c.timer 2)) =
      some (25, ⟨25, 100, none, false⟩, ⟨1, 4, none, false⟩) := by decide

/-- T12, T13: an armed retransmission survives a new rate, but not rate 0. -/
theorem test_setIdle_due :
    (cellAfter (exec (.setIdle 25 0 0) (putTimer kbd 0 0 ⟨125, 200, some (k8 4), true⟩)) 0).map (·.timer 0) =
      some ⟨25, 100, some (k8 4), true⟩ ∧
    (cellAfter (exec (.setIdle 0 0 0) (putTimer kbd 0 0 ⟨125, 200, some (k8 4), true⟩)) 0).map (·.timer 0) =
      some ⟨0, 0, some (k8 4), false⟩ := by decide

/-- P4 step 2, Q28. -/
theorem test_getProtocol :
    emitted (exec (.getProtocol 0 1) boot) = some ([], .data [0]) ∧
    emitted (exec (.getProtocol 1 1) cmp) = some ([], .data [1]) := by decide

/-- Q47: the high byte of wIndex counts. -/
theorem test_getProtocol_routing :
    emitted (exec (.getProtocol 0x0100 1) kbd) = some ([], .unhandled .noSuchInterfaceNumber) := by decide

/-- Q29, Q30. -/
theorem test_setProtocol :
    (cellAfter (exec (.setProtocol 0 0) kbd) 0).map (·.protocol) = some .boot ∧
    (after (exec (.setProtocol 1 0) boot)).block = kbd.block := by decide

/-- Q33, Q35. -/
theorem test_setProtocol_stalls :
    emitted (exec (.setProtocol 0x0100 0) kbd) = some ([], .stall .malformedRequest) ∧
    emitted (exec (.setProtocol 2 1) cmp) = some ([], .stall .invalidProtocolRequest) := by decide

/-- R160, R151: as Q38, Q37, Q36, with short descriptors. -/
theorem test_getDescriptor :
    emitted (exec (.getDescriptorHid 0 9) small) = some ([], .data [9, 0x21]) ∧
    emitted (exec (.getDescriptorReport 0 2) small) = some ([], .data [1, 2]) ∧
    emitted (exec (.getDescriptorReport 0 0xFF) small) = some ([], .data [1, 2, 3]) := by decide

/-- Q39. -/
theorem test_getDescriptorPhysical :
    emitted (exec (.getDescriptorPhysical 0 9) kbd) = some ([], .stall .unsupportedRequest) := by decide

/-- Q42, Q48: no row, then no interface before the fields. -/
theorem test_setup_declines :
    emitted (exec (.setup ⟨0xC1, 0x01, 0, 0, 1⟩ []) kbd) = some ([], .unhandled .notHidRequest) ∧
    emitted (exec (.setup ⟨0xA1, 0x01, 0x0007, 5, 8⟩ []) cmp) = some ([], .unhandled .noSuchInterfaceNumber) := by decide

/-- Q10, Q40: the operands are assembled from the packet, and the descriptor index is ignored. -/
theorem test_setup_runs :
    emitted (exec (.setup ⟨0x21, 0x09, 0x0200, 0, 1⟩ [2]) kbd) = some ([.setReport 0 .output 0 [2]], .ack) ∧
    emitted (exec (.setup ⟨0x81, 0x06, 0x2205, 0, 2⟩ []) small) = some ([], .data [1, 2]) := by decide

/-! ### Endpoint events, time and reset -/

/-- E8. -/
theorem test_poll_newest :
    emitted (exec (.poll [false, true]) b8) = some ([.inTransmit 1 [2, 0x0C, 0x0D]], .ok) ∧
    (cellAfter (exec (.poll [false, true]) b8) 1).map (fun c => (c.input, c.timer 1, c.timer 2)) =
      some (⟨[(1, [1, 0x0A, 0x0B])], [1]⟩, ⟨0, 0, none, false⟩, ⟨0, 0, some [2, 0x0C, 0x0D], false⟩) := by decide

/-- The state of vector E10. -/
def e10 : State :=
  putTimer (putTimer cmp 1 1 ⟨1, 4, some [1, 0x0A, 0x0B], true⟩) 1 2 ⟨1, 4, some [2, 0x0C, 0x0D], true⟩

/-- E10, and E3 on both interfaces' terms: lowest due ID, and a busy endpoint. -/
theorem test_poll_due_and_busy :
    emitted (exec (.poll [false, true]) e10) = some ([.inTransmit 1 [1, 0x0A, 0x0B]], .ok) ∧
    (cellAfter (exec (.poll [false, true]) e10) 1).map (fun c => ((c.timer 1).due, (c.timer 2).due)) =
      some (false, true) ∧
    emitted (exec (.poll [true, false]) e10) = some ([.inBusy 1], .ok) := by decide

/-- E13, E15. -/
theorem test_outData :
    emitted (exec (.outData 0 [5]) kbd) = some ([.setReport 0 .output 0 [5]], .ok) ∧
    (cellAfter (exec (.outData 0 [5]) kbd) 0).map (·.output) = some ⟨[(0, [5])], [0]⟩ ∧
    emitted (exec (.outData 0 [5, 6]) kbd) = some ([], .dropped .malformedRequest) := by decide

/-- E17, E18. -/
theorem test_outData_stops :
    emitted (exec (.outData 2 [5]) kbd) = some ([], .fault .noSuchInterface) ∧
    stopped (exec (.outData 1 [5]) cmp) = some .noOutEndpoint := by decide

/-- T2, T4. -/
theorem test_tick_expires :
    (cellAfter (exec (.tick 1) (putTimer kbd 0 0 ⟨125, 1, some (k8 4), false⟩)) 0).map (·.timer 0) =
      some ⟨125, 500, some (k8 4), true⟩ ∧
    (cellAfter (exec (.tick 2000) (putTimer kbd 0 0 ⟨125, 500, some (k8 4), false⟩)) 0).map (·.timer 0) =
      some ⟨125, 500, some (k8 4), true⟩ := by decide

/-- P2 step 6: every interface's timers, with nothing armed where nothing was sent. -/
theorem test_tick_all :
    emitted (exec (.tick 100) q22) = some ([.idleExpired 1 1, .idleExpired 1 2], .ok) ∧
    (cellAfter (exec (.tick 100) q22) 0).map (·.timer 0) = some ⟨125, 400, none, false⟩ ∧
    (cellAfter (exec (.tick 100) q22) 1).map (·.timer 1) = some ⟨25, 100, none, false⟩ := by decide

/-- X2, without the last report's report: everything is back at `Z`, and nothing is emitted. -/
theorem test_reset :
    emitted (exec .reset (State.did q23 (.writeReport 1 [1, 0x0A, 0x0B]))) = some ([], .ok) ∧
    (after (exec .reset (State.did q23 (.writeReport 1 [1, 0x0A, 0x0B])))).block = cmp.block := by decide

/-- X3, X4: a faulted block has no step. -/
theorem test_faulted :
    stopped (exec .reset (faulted kbd)) = some (.sticky .configError) ∧
    stopped (exec (.tick 1) (faulted kbd)) = some (.sticky .configError) := by decide

/-! ### Steps -/

/-- P1 step 1 from the port, and nothing presented. -/
theorem test_step :
    emitted (step (kbd.present ⟨.setup, [0x21, 0x0A, 0x00, 0x00, 0x00, 0x00, 0x00, 0x00]⟩)) = some ([], .ack) ∧
    (after (step (kbd.present ⟨.setup, [0x21, 0x0A, 0x00, 0x00, 0x00, 0x00, 0x00, 0x00]⟩))).port = [] ∧
    after (step kbd) = kbd := by decide

/-- Q46 from the port, bytes that are no operation, and a configuration that is no device (R11(c)). -/
theorem test_step_rejects :
    emitted (step (kbd.present ⟨.setup, [0x80, 0x06, 0x00, 0x02, 0x00, 0x00, 0xFF, 0x00]⟩)) =
      some ([], .unhandled .notHidRequest) ∧
    refusal (step (kbd.present ⟨.call, [0x10]⟩)) = some (.undecodable (.unknownOpCode 0x10)) ∧
    refusal (step (State.powerOn ⟨[{ IfConfig.keyboard with inputSizes := [(0, 0)] }], false, ReqCode.hid111⟩)) =
      some .illFormedConfig := by decide

/-- A table row's word, presented, is the next operation performed (R52, R57): GET_IDLE's row and tick's. -/
theorem test_withFetchWord :
    emitted (step (cmp.withFetchWord 32 0x02A1)) = some ([], .data []) ∧
    emitted (step (cmp.withFetchWord 8 0x12)) = some ([], .ok) := by decide

/-! ### Witnesses: the hypotheses of every statement, met together -/

theorem kbd_inv : kbd.Inv := ⟨by decide, by decide, by decide⟩
theorem cmp_inv : cmp.Inv := ⟨by decide, by decide, by decide⟩
theorem b8_inv : b8.Inv := ⟨by decide, by decide, by decide⟩
theorem e10_inv : e10.Inv := ⟨by decide, by decide, by decide⟩

theorem witness_DecodeOfEncodeGivesTheOperationBack :
    ReqCode.hid111.Wf ∧ (Instr.writeReport (2 ^ 32 - 1) [1]).wellFormed = true := by decide

theorem witness_SetupDecodingFollowsTheRequestTable :
    ReqCode.hid111.Wf ∧
    (∃ row ∈ ReqCode.hid111.table, (SetupPacket.mk 0x81 0x06 0x22FF 0 0).key &&& row.mask = row.value) ∧
    ∀ row ∈ ReqCode.hid111.table, (SetupPacket.mk 0x81 0x06 0x24FF 0 0).key &&& row.mask ≠ row.value := by decide

theorem witness_SelectedRequestsAreInterfaceRequests :
    ReqCode.hid111.select (SetupPacket.mk 0xA1 0x01 0 0 0).key = some .getReport ∧
    ReqCode.hid111.select (SetupPacket.mk 0x21 0x0B 0 0 0).key = some .setProtocol ∧
    ReqCode.hid111.select (SetupPacket.mk 0x81 0x06 0x2300 0 0).key = some .getDescriptorPhysical := by decide

theorem witness_PseudoInstructionsDecodeToTheirRequests : ReqCode.hid111.Wf := by decide

theorem witness_InterfaceLookupIsExactMatch :
    Config.vectorC.Wf ∧ interfaceIndex Config.vectorC 1 = some 1 ∧ interfaceIndex Config.vectorC 0x0101 = none := by
  decide

theorem witness_StepPerformsThePresentedOperation :
    kbd.config.Wf ∧ kbd.Running ∧ kbd.port = [] ∧ (kbd.present ⟨.event, [0x13]⟩).port = ⟨.event, [0x13]⟩ :: [] ∧
      decode kbd.config.reqCode ⟨.event, [0x13]⟩ = .ok .reset := ⟨by decide, rfl, rfl, rfl, rfl⟩

theorem witness_UnmatchedPacketsAreDeclined :
    kbd.config.Wf ∧ kbd.Running ∧ kbd.config.reqCode.select (SetupPacket.mk 0x80 0x06 0x0200 0 0xFF).key = none ∧
      (kbd.present ⟨.setup, (SetupPacket.mk 0x80 0x06 0x0200 0 0xFF).wire ++ []⟩).port =
        ⟨.setup, (SetupPacket.mk 0x80 0x06 0x0200 0 0xFF).wire ++ []⟩ :: [] := by decide

theorem witness_FaultedBlockHasNoStep : (faulted kbd).block.fault = some .configError ∧ (faulted kbd).config.Wf := by
  decide

theorem witness_IllFormedConfigurationIsRefused : ¬ (State.powerOn ⟨[], false, ReqCode.hid111⟩).config.Wf := by decide

theorem witness_RunningBlockPerformsEveryOperation : kbd.Running := by decide

theorem witness_WriteReportStoresTheNewestReport :
    b7.Running ∧ b7.HasCell 1 IfConfig.composite (cellOf b7 1) ∧
      validReport IfConfig.composite .input [2, 0x0C, 0x0D] = some 2 := by decide

theorem witness_WriteReportOfWrongShapeFaults :
    cmp.Running ∧ cmp.HasCell 1 IfConfig.composite (cellOf cmp 1) ∧
      validReport IfConfig.composite .input [3, 0, 0] = none ∧ validReport IfConfig.composite .input [] = none := by
  decide

theorem witness_BadInterfaceIndexFaults : cmp.Running ∧ cmp.config.ifs.length ≤ 2 := by decide

/-- A bad index at the boundary, nothing pending, no output IDs, and a pending report. -/
theorem witness_ReadReportTakesTheNewestOutputReport :
    b14.Running ∧ b14.config.ifs.length ≤ 1 ∧ cmp.Inv ∧
    (kbd.HasCell 0 IfConfig.keyboard (cellOf kbd 0) ∧ ((cellOf kbd 0).buf .output).order = []) ∧
    (cmp.HasCell 1 IfConfig.composite (cellOf cmp 1) ∧ IfConfig.composite.ids .output = []) ∧
    (b14.HasCell 0 IfConfig.keyboard (cellOf b14 0) ∧ ((cellOf b14 0).buf .output).order = 0 :: [] ∧
      ((cellOf b14 0).buf .output).get 0 = some [2]) :=
  ⟨by decide, by decide, cmp_inv, by decide, by decide, by decide⟩

theorem witness_GetProtocolCallReturnsTheProtocol :
    cmp.Running ∧ cmp.config.ifs.length ≤ 2 ∧ cmp.Inv ∧ cmp.HasCell 0 IfConfig.keyboard (cellOf cmp 0) ∧
    cmp.HasCell 1 IfConfig.composite (cellOf cmp 1) ∧ IfConfig.composite.bootCapable = false :=
  ⟨by decide, by decide, cmp_inv, by decide, by decide, by decide⟩

theorem witness_LatestReportWins :
    kbd.HasCell 0 IfConfig.keyboard (cellOf kbd 0) ∧
    (validReport IfConfig.keyboard .input (k8 4) = some 0 ∧ validReport IfConfig.keyboard .input (k8 5) = some 0 ∧
      completes (exec (.writeReport 0 (k8 4)) kbd) = true ∧ completes (exec (.writeReport 0 (k8 5)) b1) = true ∧
      completes (exec (.writeReport 0 (k8 5)) kbd) = true) ∧
    (validReport IfConfig.keyboard .output [1] = some 0 ∧ validReport IfConfig.keyboard .output [2] = some 0 ∧
      completes (exec (.outData 0 [1]) kbd) = true ∧
      completes (exec (.outData 0 [2]) (State.did kbd (.outData 0 [1]))) = true ∧
      completes (exec (.outData 0 [2]) kbd) = true) := by decide

/-- Disabled; expiring exactly; one millisecond short of it. -/
theorem witness_TimerTickFollowsItsRule :
    (Timer.mk 0 0 none false).idleRate = 0 ∧
    ((Timer.mk 125 500 none false).idleRate ≠ 0 ∧
      (Timer.mk 125 500 none false).countdown.toNat ≤ (500 : Word).toNat ∧
      (499 : Word).toNat < (Timer.mk 125 500 none false).countdown.toNat) := by decide

theorem witness_TickAdvancesEveryTimer :
    cmp.Running ∧ cmp.config.Wf ∧ cmp.HasCell 1 IfConfig.composite (cellOf cmp 1) := by decide

theorem witness_OneExpiryPerPeriod :
    (Timer.mk 125 500 none false).idleRate ≠ 0 ∧ (Timer.mk 125 500 none false).countdown = period 125 ∧
    (([250, 250, 0] : List Word).map BitVec.toNat).sum = (125 : Byte).toNat * 4 ∧
    (([250, 249] : List Word).map BitVec.toNat).sum < (125 : Byte).toNat * 4 := by decide

theorem witness_RateZeroNeverExpires :
    exec (.tick 0xFFFFFFFF) cmp = .next (State.did cmp (.tick 0xFFFFFFFF)) ∧
    (State.did cmp (.tick 0xFFFFFFFF)).trace = ⟨[.idleExpired 0 0], .ok⟩ :: cmp.trace ∧
    cmp.HasCell 1 IfConfig.composite (cellOf cmp 1) ∧
    (State.did cmp (.tick 0xFFFFFFFF)).block.cells[1]? = some (cellOf (State.did cmp (.tick 0xFFFFFFFF)) 1) ∧
    ((cellOf cmp 1).timer 1).idleRate = 0 := ⟨rfl, by decide, by decide, by decide, by decide⟩

theorem witness_UnknownInterfaceNumberIsDeclined :
    cmp.Running ∧ requestIndex (.setIdle 0 0 2) = some 2 ∧ interfaceIndex cmp.config 2 = none ∧
      requestIndex (.getReport 9 7 0x0100 0) = some 0x0100 ∧ interfaceIndex cmp.config 0x0100 = none := by decide

/-- A pending and an absent report, on a device that keeps and on one that consumes. -/
theorem witness_GetReportAnswersPendingOrZeroReport :
    (b8.Running ∧ b8.Routes 1 1 IfConfig.composite (cellOf b8 1) ∧ IfConfig.composite.Wf ∧
      reportTypeOf b8.config.reqCode 1 = some .input ∧ reportTypeOf b8.config.reqCode 3 = some .feature ∧
      IfConfig.composite.size? .input 2 = some 3 ∧ IfConfig.composite.size? .feature 3 = some 2 ∧
      ((cellOf b8 1).buf .input).get 2 = some [2, 0x0C, 0x0D] ∧ ((cellOf b8 1).buf .feature).get 3 = none ∧
      b8.config.getReportConsumes = false) ∧
    (small.Running ∧ small.Routes 0 0 (small.config.ifs.getD 0 IfConfig.keyboard) (cellOf small 0) ∧
      (small.config.ifs.getD 0 IfConfig.keyboard).Wf ∧
      (small.config.ifs.getD 0 IfConfig.keyboard).size? .input 0 = some 8 ∧
      ((cellOf small 0).buf .input).get 0 = none ∧ small.config.getReportConsumes = true) :=
  ⟨⟨by decide, by decide, by decide, by decide⟩, by decide, by decide, by decide, by decide⟩

theorem witness_GetReportStallsOnUnknownReports :
    cmp.Running ∧ cmp.Routes 1 1 IfConfig.composite (cellOf cmp 1) ∧ reportTypeOf cmp.config.reqCode 0 = none ∧
      reportTypeOf cmp.config.reqCode 4 = none ∧ reportTypeOf cmp.config.reqCode 3 = some .feature ∧
      1 ∉ IfConfig.composite.ids .feature := by decide

theorem witness_SetReportStoresAndNotifies :
    cmp.Running ∧ cmp.Routes 1 1 IfConfig.composite (cellOf cmp 1) ∧
      reportTypeOf cmp.config.reqCode 3 = some .feature ∧
      validReport IfConfig.composite .feature [3, 0x55] = some 3 := by decide

/-- A reserved code, type Input, an unknown ID, and data of the wrong shape. -/
theorem witness_SetReportStallsInOrder :
    cmp.Running ∧ cmp.Routes 1 1 IfConfig.composite (cellOf cmp 1) ∧ reportTypeOf cmp.config.reqCode 4 = none ∧
      reportTypeOf cmp.config.reqCode 1 = some .input ∧ reportTypeOf cmp.config.reqCode 3 = some .feature ∧
      4 ∉ IfConfig.composite.ids .feature ∧ 3 ∈ IfConfig.composite.ids .feature ∧
      validReport IfConfig.composite .feature [4, 0x55] ≠ some 3 := by decide

/-- ID 0 with and without report IDs, an input ID, a feature ID, and any ID without report IDs. -/
theorem witness_GetIdleAnswersTheRate :
    cmp.Running ∧ cmp.Routes 1 1 IfConfig.composite (cellOf cmp 1) ∧ cmp.Routes 0 0 IfConfig.keyboard (cellOf cmp 0) ∧
      IfConfig.composite.usesIds = true ∧ IfConfig.keyboard.usesIds = false ∧ 2 ∈ IfConfig.composite.ids .input ∧
      3 ∉ IfConfig.composite.ids .input := by decide

theorem witness_SetIdleSetsTheAddressedRates :
    cmp.Running ∧ cmp.Routes 0 0 IfConfig.keyboard (cellOf cmp 0) ∧ ((0 : Byte) = 0 ∨ IfConfig.keyboard.usesIds = true ∧
      0 ∈ IfConfig.keyboard.ids .input) ∧
    cmp.Routes 1 1 IfConfig.composite (cellOf cmp 1) ∧ ((2 : Byte) = 0 ∨ IfConfig.composite.usesIds = true ∧
      2 ∈ IfConfig.composite.ids .input) := by decide

theorem witness_SetIdleStallsOnUnknownId :
    cmp.Running ∧ cmp.Routes 1 1 IfConfig.composite (cellOf cmp 1) ∧ (3 : Byte) ≠ 0 ∧
      (IfConfig.composite.usesIds = false ∨ 3 ∉ IfConfig.composite.ids .input) ∧
    cmp.Routes 0 0 IfConfig.keyboard (cellOf cmp 0) ∧
      (IfConfig.keyboard.usesIds = false ∨ 1 ∉ IfConfig.keyboard.ids .input) := by decide

theorem witness_GetProtocolAnswersTheCode :
    boot.Running ∧ boot.Routes 0 0 IfConfig.keyboard (cellOf boot 0) ∧ (cellOf boot 0).protocol = .boot := by decide

/-- Not boot-capable; boot-capable with each legal code and the first reserved one. -/
theorem witness_SetProtocolOnlyOnBootInterfaces :
    cmp.Running ∧ cmp.Routes 1 1 IfConfig.composite (cellOf cmp 1) ∧ IfConfig.composite.bootCapable = false ∧
      cmp.Routes 0 0 IfConfig.keyboard (cellOf cmp 0) ∧ IfConfig.keyboard.bootCapable = true ∧
      protocolOf cmp.config.reqCode 0 = some .boot ∧ protocolOf cmp.config.reqCode 1 = some .report ∧
      protocolOf cmp.config.reqCode 2 = none := by decide

theorem witness_DescriptorRequestsAnswerTheConfiguredBytes :
    cmp.Running ∧ cmp.Routes 1 1 IfConfig.composite (cellOf cmp 1) := by decide

theorem witness_SetupRunsTheSelectedRequest :
    kbd.Running ∧ kbd.config.reqCode.select (SetupPacket.mk 0x21 0x09 0x0200 0 1).key = some .setReport := by decide

theorem witness_ControlRequestsNeverFault :
    kbd.Running ∧ (Instr.getReport 9 9 9 9).format = .setup ∧
      ∃ p data, Instr.setup ⟨0, 0, 0, 0, 0⟩ [] = .setup p data := ⟨by decide, rfl, _, _, rfl⟩

/-- Two states that differ in the other interface's cell. -/
theorem witness_RequestsAreIsolatedToTheirInterface :
    cmp.config = (State.did cmp (.setIdle 7 0 0)).config ∧ cmp.Running ∧ (State.did cmp (.setIdle 7 0 0)).Running ∧
    requestIndex (.getIdle 1 1 1) = some 1 ∧ cmp.Routes 1 1 IfConfig.composite (cellOf cmp 1) ∧
    (State.did cmp (.setIdle 7 0 0)).Routes 1 1 IfConfig.composite (cellOf cmp 1) ∧
    exec (.getIdle 1 1 1) cmp = .next (State.did cmp (.getIdle 1 1 1)) ∧
    cmp.block ≠ (State.did cmp (.setIdle 7 0 0)).block :=
  ⟨by decide, by decide, by decide, by decide, by decide, by decide, rfl, by decide⟩

theorem witness_PollTransmitsTheNewestPendingReport :
    b8.Running ∧ b8.HasCell 1 IfConfig.composite (cellOf b8 1) ∧ ((cellOf b8 1).buf .input).order = 2 :: [1] ∧
      ((cellOf b8 1).buf .input).get 2 = some [2, 0x0C, 0x0D] ∧ accepted [false, true] 1 = true := by decide

theorem witness_PollRetransmitsTheLowestDueReport :
    e10.Running ∧ e10.config.Wf ∧ e10.HasCell 1 IfConfig.composite (cellOf e10 1) ∧
      ((cellOf e10 1).buf .input).order = [] ∧ 1 ∈ IfConfig.composite.ids .input ∧ ((cellOf e10 1).timer 1).due = true ∧
      (∀ j ∈ IfConfig.composite.ids .input, j < 1 → ((cellOf e10 1).timer j).due = false) ∧
      ((cellOf e10 1).timer 1).lastReport = some [1, 0x0A, 0x0B] ∧ accepted [false, true] 1 = true := by decide

/-- Nothing to send; a busy endpoint with a fresh report; a busy endpoint with a retransmission armed. -/
theorem witness_PollWithoutTransmissionLeavesTheCell :
    (cmp.Inv ∧ cmp.Running ∧ cmp.HasCell 1 IfConfig.composite (cellOf cmp 1) ∧ ((cellOf cmp 1).buf .input).order = [] ∧
      ∀ id ∈ IfConfig.composite.ids .input, ((cellOf cmp 1).timer id).due = false) ∧
    (b8.Inv ∧ b8.Running ∧ b8.HasCell 1 IfConfig.composite (cellOf b8 1) ∧ accepted [true, false] 1 = false ∧
      ((cellOf b8 1).buf .input).order ≠ []) ∧
    (e10.Inv ∧ e10.Running ∧ e10.HasCell 1 IfConfig.composite (cellOf e10 1) ∧ accepted [true] 1 = false ∧
      ∃ id ∈ IfConfig.composite.ids .input, ((cellOf e10 1).timer id).due = true) :=
  ⟨⟨cmp_inv, by decide, by decide, by decide, by decide⟩, ⟨b8_inv, by decide, by decide, by decide, by decide⟩,
    e10_inv, by decide, by decide, by decide, by decide⟩

theorem witness_PollServesInterfacesInOrderAndAlone :
    exec (.poll [true, true]) b8 = .next (State.did b8 (.poll [true, true])) ∧
    exec (.poll [false, true]) b8 = .next (State.did b8 (.poll [false, true])) ∧
    b8.HasCell 1 IfConfig.composite (cellOf b8 1) ∧ accepted [true, true] 1 = accepted [false, true] 1 ∧
    ServedAll b8 (State.did b8 (.poll [true, true])) [.inTransmit 1 [2, 0x0C, 0x0D]] ∧
    ServedAll b8 (State.did b8 (.poll [false, true])) [.inTransmit 1 [2, 0x0C, 0x0D]] :=
  ⟨rfl, rfl, by decide, by decide, by decide, by decide⟩

theorem witness_WrittenReportGoesOutOnce :
    cmp.Inv ∧ cmp.Running ∧ cmp.HasCell 1 IfConfig.composite (cellOf cmp 1) ∧
      ((cellOf cmp 1).buf .input).order = [] ∧
      (∀ j ∈ IfConfig.composite.ids .input, ((cellOf cmp 1).timer j).idleRate = 0) ∧
      validReport IfConfig.composite .input [1, 0x0A, 0x0B] = some 1 ∧ accepted [false, true] 1 = true :=
  ⟨cmp_inv, by decide, by decide, by decide, by decide, by decide, by decide⟩

theorem witness_OutDataStoresOrDrops :
    kbd.Running ∧ kbd.HasCell 0 IfConfig.keyboard (cellOf kbd 0) ∧ IfConfig.keyboard.hasOutEp = true ∧
      validReport IfConfig.keyboard .output [5] = some 0 ∧ validReport IfConfig.keyboard .output [] = none := by decide

theorem witness_OutDataWithoutEndpointHasNoStep :
    cmp.Running ∧ cmp.config.ifs[1]? = some IfConfig.composite ∧ IfConfig.composite.hasOutEp = false := by decide

theorem witness_PowerOnHasTheResetValues : Config.vectorC.ifs[1]? = some IfConfig.composite := by decide

theorem witness_ResetRestoresThePowerOnState : e10.Inv ∧ e10.Running := ⟨e10_inv, by decide⟩

theorem witness_PowerOnMeetsTheInvariant : Config.vectorC.Wf := by decide

theorem witness_EveryStepKeepsTheInvariant :
    (b8.present ⟨.event, [0x10, 0x00, 0x01]⟩).Inv ∧
      step (b8.present ⟨.event, [0x10, 0x00, 0x01]⟩) =
        .next (after (step (b8.present ⟨.event, [0x10, 0x00, 0x01]⟩))) := ⟨b8_inv, rfl⟩

theorem witness_OperationsWriteOnlyTheirAccessTableFields :
    exec (.poll [true, true]) b8 = .next (State.did b8 (.poll [true, true])) ∧
      mayWrite b8.config (.poll [true, true]) .idleRate = false := ⟨rfl, by decide⟩

/-- WouldBlock, a stall, an Unhandled verdict, a dropped packet, and a fault. -/
theorem witness_RejectedOperationsChangeNoState :
    emitted (exec (.readReport 0) kbd) = some ([], .wouldBlock) ∧
    emitted (exec (.setProtocol 2 0) kbd) = some ([], .stall .malformedRequest) ∧
    emitted (exec (.getProtocol 5 1) kbd) = some ([], .unhandled .noSuchInterfaceNumber) ∧
    emitted (exec (.outData 0 []) kbd) = some ([], .dropped .malformedRequest) ∧
    emitted (exec (.writeReport 0 []) kbd) = some ([], .fault .configError) := by decide

theorem witness_OnlyProgrammerErrorsFault :
    exec (.writeReport 0 []) kbd = .next (State.did kbd (.writeReport 0 [])) ∧
      (State.did kbd (.writeReport 0 [])).block.fault = some .configError ∧
    exec (.readReport 1) kbd = .next (State.did kbd (.readReport 1)) ∧
      (State.did kbd (.readReport 1)).block.fault = some .noSuchInterface ∧ kbd.Inv :=
  ⟨rfl, by decide, rfl, by decide, kbd_inv⟩

/-- A step that emits each kind of event. -/
theorem witness_EventsComeFromTheirOperations :
    emitted (exec (.poll [true]) b1) = some ([.inTransmit 0 (k8 4)], .ok) ∧
    emitted (exec (.poll [false]) b1) = some ([.inBusy 0], .ok) ∧
    emitted (exec (.tick 500) kbd) = some ([.idleExpired 0 0], .ok) ∧
    emitted (exec (.setup ⟨0x21, 0x09, 0x0200, 0, 1⟩ [2]) kbd) = some ([.setReport 0 .output 0 [2]], .ack) := by decide

theorem witness_ReadingOperationsHaveNoSideEffects :
    (∀ i ∈ [Instr.getIdle 0 0 1, .getProtocol 0 1, .getDescriptorHid 0 9, .getDescriptorReport 0 9,
      .getDescriptorPhysical 0 9, .getProtocolCall 0, .getReport 1 0 0 8], completes (exec i b1) = true) ∧
    b1.HasCell 0 IfConfig.keyboard (cellOf b1 0) ∧ b1.config.getReportConsumes = false := by decide

theorem witness_WritingOperationsAreIdempotent :
    ∀ i ∈ [Instr.writeReport 0 (k8 4), .setReport 2 0 0 1 [2], .outData 0 [2], .setIdle 25 0 0, .setProtocol 0 0, .reset],
      completes (exec i kbd) = true ∧ completes (exec i (State.did kbd i)) = true := by decide

theorem witness_BuffersHoldAtMostOneReportPerId :
    b8.Inv ∧ b8.HasCell 1 IfConfig.composite (cellOf b8 1) ∧
      ((cellOf b8 1).buf .input).get 1 = some [1, 0x0A, 0x0B] := ⟨b8_inv, by decide, by decide⟩

/-- A report new in an input buffer, and one new in an output buffer. -/
theorem witness_ReportsComeFromTheirProducer :
    (exec (.writeReport 0 (k8 4)) kbd = .next b1 ∧ kbd.block.cells[0]? = some (cellOf kbd 0) ∧
      b1.block.cells[0]? = some (cellOf b1 0) ∧ ((cellOf b1 0).buf .input).get 0 = some (k8 4) ∧
      ((cellOf kbd 0).buf .input).get 0 ≠ some (k8 4)) ∧
    (exec (.outData 0 [2]) kbd = .next b14 ∧ b14.block.cells[0]? = some (cellOf b14 0) ∧
      ((cellOf b14 0).buf .output).get 0 = some [2] ∧ ((cellOf kbd 0).buf .output).get 0 ≠ some [2]) :=
  ⟨⟨rfl, by decide, by decide, by decide, by decide⟩, rfl, by decide, by decide, by decide⟩

end Sys2Proof.Tests
end

section
/-! The Report Buffer family (40_report_buffer.md): `BufWrite` (R100), from the laws of `Buffer.write`. -/

namespace Sys2Proof.Machine

/-- Settles O13: the written slot, the other slots, the order of arrival, and the overwritten report that leaves no
trace (R100). -/
theorem bufWriteReplacesAndMakesNewest : Obligations.BufWriteReplacesAndMakesNewest := by
  intro b id r
  exact ⟨Buffer.get_write_self, fun _ hj => Buffer.get_write_of_ne hj, Buffer.order_write, fun _ => Buffer.write_write⟩

end Sys2Proof.Machine
end

section
/-! The Idle Timer family (41_idle_timer.md): the period (R130), from the law `period_toNat`. -/

namespace Sys2Proof.Machine

/-- Settles O21: the product is taken without wrapping (`period_toNat`), and a rate is at most 255 (R130). -/
theorem periodIsFourTimesTheRate : Obligations.PeriodIsFourTimesTheRate := by
  intro rate
  have hrate : rate.toNat < 256 := rate.isLt
  have hperiod : (period rate).toNat = rate.toNat * 4 := period_toNat
  exact ⟨hperiod, by omega⟩

end Sys2Proof.Machine
end

section
/-! Meanings: exec's arms, gathered by the shared operation each of them runs (Machine/Ops.lean): a control request
is `routed`, an operation that names an index goes through `onInterface`, and the others serve every interface. The
whole-machine statements are proved once for each of the three kinds. -/

namespace Sys2Proof.Machine

/-- A control request by itself: its `wIndex` and its effect on the cell it reaches. -/
def requestMeaning (c : Config) : Instr → Option (Half × (Nat → IfConfig → Cell → CellEffect))
  | .getReport tc id w l => some (w, getReportOn c tc id l)
  | .getIdle id w l => some (w, getIdleOn id l)
  | .getProtocol w l => some (w, getProtocolByteOn c l)
  | .setReport tc id w _ data => some (w, setReportOn c tc id data)
  | .setIdle rate id w => some (w, setIdleOn rate id)
  | .setProtocol v w => some (w, setProtocolOn c v)
  | .getDescriptorHid w l => some (w, fun _ ic cell => answer l ic.hidDesc cell)
  | .getDescriptorReport w l => some (w, fun _ ic cell => answer l ic.reportDesc cell)
  | .getDescriptorPhysical w _ => some (w, fun _ _ cell => stall .unsupportedRequest cell)
  | _ => none

/-- An operation that names its interface by index: the index, and its effect on that interface's cell. -/
def callMeaning : Instr → Option (Nat × (IfConfig → Cell → Except FaultReason CellEffect))
  | .writeReport ix b => some (ix, writeReportOn b)
  | .readReport ix => some (ix, readReportOn)
  | .getProtocolCall ix => some (ix, getProtocolOn)
  | .outData ix b => some (ix, outDataOn ix b)
  | _ => none

/-- An operation that serves every interface: what it does to one of them. -/
def serviceMeaning : Instr → Option (Nat → IfConfig → Cell → Cell × List Event)
  | .poll accept => some (pollCell accept)
  | .tick ms => some (tickCell ms)
  | .reset => some resetCell
  | _ => none

variable {s t : State} {i : Instr} {w : Half} {ix : Nat}

theorem requestMeaning_index {c : Config} : (requestMeaning c i).map Prod.fst = requestIndex i := by cases i <;> rfl

theorem requestMeaning_of_index {c : Config} (h : requestIndex i = some w) : ∃ g, requestMeaning c i = some (w, g) := by
  rw [← requestMeaning_index (c := c), Option.map_eq_some_iff] at h
  obtain ⟨⟨_, g⟩, hg, rfl⟩ := h
  exact ⟨g, hg⟩

/-- What a packet selects is a control request (R73). -/
theorem requestMeaning_requestInstr (c : Config) (r : Request) (p : SetupPacket) (data : Bytes) :
    ∃ g, requestMeaning c (requestInstr r p data) = some (p.wIndex, g) := by
  cases r <;> exact ⟨_, rfl⟩

theorem exec_requestMeaning {g : Nat → IfConfig → Cell → CellEffect} (h : requestMeaning s.config i = some (w, g)) :
    exec i s = perform s (routed w g) := by
  cases i <;> cases h <;> rfl

theorem exec_serviceMeaning {g : Nat → IfConfig → Cell → Cell × List Event} (h : serviceMeaning i = some g) :
    exec i s = perform s (onEveryInterface g) := by
  cases i <;> cases h <;> rfl

/-- How a running block gets from `s` to the next state by operation `i`. -/
inductive Performed (s : State) : Instr → State → Prop
  | request {i w g} (h : requestMeaning s.config i = some (w, g)) :
    Performed s i (commit s (routed w g s.config s.block))
  | call {i ix g} (h : callMeaning i = some (ix, g)) : Performed s i (commit s (onInterface ix g s.config s.block))
  | service {i g} (h : serviceMeaning i = some g) : Performed s i (commit s (onEveryInterface g s.config s.block))
  | setup {p data r g} (hr : s.config.reqCode.select p.key = some r)
    (h : requestMeaning s.config (requestInstr r p data) = some (p.wIndex, g)) :
    Performed s (.setup p data) (commit s (routed p.wIndex g s.config s.block))
  | declined {p data} (hr : s.config.reqCode.select p.key = none) :
    Performed s (.setup p data) (commit s (decline .notHidRequest s.block))

/-- Every operation that has a next state was performed in a running block, in one of the five ways. -/
theorem exec_performed (h : exec i s = .next t) : s.Running ∧ Performed s i t := by
  cases i with
  | setup p data =>
    cases hr : s.config.reqCode.select p.key with
    | none =>
      rw [exec_setup_none hr] at h
      obtain ⟨hrun, rfl⟩ := perform_next h
      exact ⟨hrun, .declined hr⟩
    | some r =>
      obtain ⟨g, hg⟩ := requestMeaning_requestInstr s.config r p data
      rw [exec_setup hr, exec_requestMeaning hg] at h
      obtain ⟨hrun, rfl⟩ := perform_next h
      exact ⟨hrun, .setup hr hg⟩
  | outData ix b =>
    obtain ⟨hrun, -, rfl⟩ := exec_outData_next h
    exact ⟨hrun, .call rfl⟩
  | writeReport | readReport | getProtocolCall =>
    obtain ⟨hrun, rfl⟩ := perform_next h
    exact ⟨hrun, .call rfl⟩
  | poll | tick | reset =>
    obtain ⟨hrun, rfl⟩ := perform_next h
    exact ⟨hrun, .service rfl⟩
  | _ =>
    obtain ⟨hrun, rfl⟩ := perform_next h
    exact ⟨hrun, .request rfl⟩

/-! ### What each meaning can do to its cell -/

/-- What control request `i` can do to the cell of interface `ix`, and no more. -/
inductive RequestEffect (c : Config) (ix : Nat) (cell : Cell) : Instr → CellEffect → Prop
  | stalled {i : Instr} (r : StallReason) : RequestEffect c ix cell i (stall r cell)
  | answered {i : Instr} (v : Bytes) : RequestEffect c ix cell i (unchanged cell (.data v))
  /-- GET_REPORT takes the report, on a device that consumes (R152, D12). -/
  | taken (tc id : Byte) (w l : Half) (ty : ReportType) (v : Bytes) (hc : c.getReportConsumes = true) :
    RequestEffect c ix cell (.getReport tc id w l)
      (unchanged (cell.setBuf ty ((cell.buf ty).take id).2) (.data v))
  /-- SET_REPORT stores an output or feature report and notifies (R154, R155). -/
  | stored (tc id : Byte) (w l : Half) (data : Bytes) (ty : ReportType) (hty : ty ≠ .input) :
    RequestEffect c ix cell (.setReport tc id w l data)
      ⟨cell.setBuf ty ((cell.buf ty).write id data), [.setReport ix ty id data], .ack⟩
  /-- SET_IDLE sets the rates of some timers, after writing the default or not (R157). -/
  | rated (rate id : Byte) (w : Half) (ids : List ReportId) (base : Cell)
    (hbase : base = cell ∨ base = cell.setIdleDefault rate) :
    RequestEffect c ix cell (.setIdle rate id w) ⟨setRates rate ids base, [], .ack⟩
  /-- SET_PROTOCOL writes the protocol (R159). -/
  | switched (v w : Half) (p : Protocol) : RequestEffect c ix cell (.setProtocol v w) ⟨cell.setProtocol p, [], .ack⟩

/-- What operation `i`, which names interface `ix`, can do to that interface's cell, and no more. -/
inductive CallEffect (ix : Nat) (ic : IfConfig) (cell : Cell) : Instr → Except FaultReason CellEffect → Prop
  /-- write_report faults on a report that is not valid (R106). -/
  | invalid (b : Bytes) (hv : validReport ic .input b = none) :
    CallEffect ix ic cell (.writeReport ix b) (.error .configError)
  | left {i : Instr} (r : Result) (hr : ∀ q, r ≠ .fault q) : CallEffect ix ic cell i (.ok (unchanged cell r))
  /-- write_report stores an input report (R106). -/
  | written (b : Bytes) (id : ReportId) : CallEffect ix ic cell (.writeReport ix b)
      (.ok ⟨cell.setBuf .input ((cell.buf .input).write id b), [], .ok⟩)
  /-- read_report takes an output report (R107). -/
  | taken (x : Bytes) (id : ReportId) (ids : List ReportId) : CallEffect ix ic cell (.readReport ix)
      (.ok ⟨cell.setBuf .output ⟨Assoc.erase (cell.buf .output).slot id, ids⟩, [], .report x⟩)
  /-- out_data stores an output report and notifies (R194). -/
  | received (b : Bytes) (id : ReportId) : CallEffect ix ic cell (.outData ix b)
      (.ok ⟨cell.setBuf .output ((cell.buf .output).write id b), [.setReport ix .output id b], .ok⟩)

variable {c : Config} {ic : IfConfig} {cell : Cell} {tc id rate : Byte} {l v : Half} {b : Bytes}

theorem getReportOn_effect :
    RequestEffect c ix cell (.getReport tc id w l) (getReportOn c tc id l ix ic cell) := by
  simp only [getReportOn]
  split
  · exact .stalled _
  · split
    · split
      · next hc => exact .taken tc id w l _ _ hc
      · exact .answered _
    · exact .stalled _

theorem setReportOn_effect :
    RequestEffect c ix cell (.setReport tc id w l b) (setReportOn c tc id b ix ic cell) := by
  have hstore : ∀ ty, ty ≠ .input →
      RequestEffect c ix cell (.setReport tc id w l b) (storeReport ix ty id b ic cell) := by
    intro ty hty
    simp only [storeReport]
    split
    · split
      · exact .stored tc id w l b ty hty
      · exact .stalled _
    · exact .stalled _
  simp only [setReportOn]
  split
  · exact .stalled _
  · exact .stalled _
  · exact hstore .output (by decide)
  · exact hstore .feature (by decide)

theorem getIdleOn_effect : RequestEffect c ix cell (.getIdle id w l) (getIdleOn id l ix ic cell) := by
  simp only [getIdleOn]
  split
  · exact .answered _
  · split
    · exact .answered _
    · exact .stalled _

theorem setIdleOn_effect : RequestEffect c ix cell (.setIdle rate id w) (setIdleOn rate id ix ic cell) := by
  simp only [setIdleOn]
  split
  · refine .rated rate id w _ _ ?_
    split
    · exact .inr rfl
    · exact .inl rfl
  · split
    · exact .rated rate id w _ _ (.inl rfl)
    · exact .stalled _

theorem setProtocolOn_effect : RequestEffect c ix cell (.setProtocol v w) (setProtocolOn c v ix ic cell) := by
  simp only [setProtocolOn]
  split
  · split
    · exact .switched v w _
    · exact .stalled _
  · exact .stalled _

theorem requestMeaning_effect {g : Nat → IfConfig → Cell → CellEffect} (h : requestMeaning c i = some (w, g)) :
    RequestEffect c ix cell i (g ix ic cell) := by
  cases i with
  | getReport => cases h; exact getReportOn_effect
  | getIdle => cases h; exact getIdleOn_effect
  | setReport => cases h; exact setReportOn_effect
  | setIdle => cases h; exact setIdleOn_effect
  | setProtocol => cases h; exact setProtocolOn_effect
  | getProtocol | getDescriptorHid | getDescriptorReport => cases h; exact .answered _
  | getDescriptorPhysical => cases h; exact .stalled _
  | _ => cases h

theorem writeReportOn_effect : CallEffect ix ic cell (.writeReport ix b) (writeReportOn b ic cell) := by
  simp only [writeReportOn]
  split
  · next hv => exact .invalid b hv
  · exact .written b _

theorem readReportOn_effect : CallEffect ix ic cell (.readReport ix) (readReportOn ic cell) := by
  simp only [readReportOn]
  split
  · exact .left _ fun _ hq => nomatch hq
  · next x rest hread =>
    obtain ⟨id, ids, -, -, rfl⟩ := Buffer.read_eq_some hread
    exact .taken x id ids

theorem outDataOn_effect : CallEffect ix ic cell (.outData ix b) (outDataOn ix b ic cell) := by
  simp only [outDataOn]
  split
  · exact .left _ fun _ hq => nomatch hq
  · exact .received b _

theorem callMeaning_effect {g : IfConfig → Cell → Except FaultReason CellEffect} (h : callMeaning i = some (ix, g)) :
    CallEffect ix ic cell i (g ic cell) := by
  cases i with
  | writeReport => cases h; exact writeReportOn_effect
  | readReport => cases h; exact readReportOn_effect
  | getProtocolCall => cases h; exact .left _ fun _ hq => nomatch hq
  | outData => cases h; exact outDataOn_effect
  | _ => cases h

/-! ### What a performed operation emits and stores -/

theorem emitted_commit (s : State) (e : Effect) : Emitted s (commit s e) e.events e.result := ⟨rfl, rfl, rfl⟩

/-- A request that reaches a cell stores its effect there (R78). -/
theorem exec_request_routes {g : Nat → IfConfig → Cell → CellEffect} (hrun : s.Running) (hr : s.Routes w ix ic cell)
    (h : requestMeaning s.config i = some (w, g)) : exec i s = .next (commit s (s.block.store ix (g ix ic cell))) := by
  rw [exec_requestMeaning h, perform_running hrun, routed_of_routes hr]

/-- A request whose effect on its cell is known. -/
theorem request_changes {g : Nat → IfConfig → Cell → CellEffect} {e : CellEffect} (hrun : s.Running)
    (hr : s.Routes w ix ic cell) (h : requestMeaning s.config i = some (w, g)) (he : g ix ic cell = e) :
    ∃ t, exec i s = .next t ∧ Emitted s t e.events e.result ∧ OnlyCellBecomes s t ix e.cell := by
  subst he
  exact ⟨_, exec_request_routes hrun hr h, emitted_commit .., onlyCellBecomes_store hr.2 _⟩

/-- A request that leaves its cell alone changes nothing (R53). -/
theorem request_leaves {g : Nat → IfConfig → Cell → CellEffect} {r : Result} (hrun : s.Running)
    (hr : s.Routes w ix ic cell) (h : requestMeaning s.config i = some (w, g))
    (he : g ix ic cell = unchanged cell r) : ∃ t, exec i s = .next t ∧ LeavesBlock s t r :=
  ⟨_, exec_request_routes hrun hr h, he ▸ leavesBlock_store hr.2 r⟩

/-- An operation on an existing interface whose effect there is known. -/
theorem call_changes {g : IfConfig → Cell → Except FaultReason CellEffect} {e : CellEffect} (hrun : s.Running)
    (hc : s.HasCell ix ic cell) (h : exec i s = perform s (onInterface ix g)) (he : g ic cell = .ok e) :
    ∃ t, exec i s = .next t ∧ Emitted s t e.events e.result ∧ OnlyCellBecomes s t ix e.cell := by
  have hstore : onInterface ix g s.config s.block = s.block.store ix e := by rw [onInterface_of_cell hc.1 hc.2, he]
  exact ⟨_, by rw [h, perform_running hrun, hstore], emitted_commit .., onlyCellBecomes_store hc e⟩

/-- An operation on an existing interface that leaves the cell alone changes nothing (R53). -/
theorem call_leaves {g : IfConfig → Cell → Except FaultReason CellEffect} {r : Result} (hrun : s.Running)
    (hc : s.HasCell ix ic cell) (h : exec i s = perform s (onInterface ix g))
    (he : g ic cell = .ok (unchanged cell r)) : ∃ t, exec i s = .next t ∧ LeavesBlock s t r := by
  have hstore : onInterface ix g s.config s.block = s.block.store ix (unchanged cell r) := by
    rw [onInterface_of_cell hc.1 hc.2, he]
  exact ⟨_, by rw [h, perform_running hrun, hstore], leavesBlock_store hc r⟩

/-- An operation whose shared operation faults raises that fault (R34). -/
theorem call_faults {f : Config → Block → Effect} {r : FaultReason} (hrun : s.Running) (h : exec i s = perform s f)
    (he : f s.config s.block = raiseFault r s.block) : ∃ t, exec i s = .next t ∧ RaisesFault s t r :=
  ⟨commit s (raiseFault r s.block), by rw [h, perform_running hrun, he], ⟨rfl, rfl, rfl⟩, rfl, rfl⟩

end Sys2Proof.Machine
end

section
/-! Encoding and decoding (30_encoding.md): the request table read in both directions, the operands of CALL and EVENT
operations, and the statements about them. -/

namespace Sys2Proof

variable {rc : ReqCode} {p : SetupPacket} {data : Bytes} {r : Request}

/-! ### Reading the request table -/

/-- A packet whose key matches a row decodes to that row's request (R73, R79). -/
theorem decode_of_row (h : rc.Wf) {row : RequestRow} (hrow : row ∈ rc.table) (hk : p.key &&& row.mask = row.value) :
    decode rc ⟨.setup, p.wire ++ data⟩ = .ok (requestInstr row.request p data) := by
  have hsel : rc.select p.key = some row.request := ReqCode.select_eq h hrow (by simpa [RequestRow.selects] using hk)
  simp only [Machine.decode_setup, hsel]

/-- A packet with the codes of a class row is that row's request. -/
theorem decode_classRow {i : Instr} (h : rc.Wf)
    (hrow : ⟨r, 0x0000FFFF, classValue p.bmRequestType p.bRequest⟩ ∈ rc.table) (hi : requestInstr r p data = i) :
    decode rc ⟨.setup, p.wire ++ data⟩ = .ok i :=
  hi ▸ decode_of_row h hrow (key_and_classMask p)

/-- A packet with the codes of a GET_DESCRIPTOR row is that row's request. -/
theorem decode_descriptorRow {i : Instr} (h : rc.Wf)
    (hrow : ⟨r, 0xFF00FFFF, descriptorValue p.bmRequestType p.bRequest (hiByte p.wValue)⟩ ∈ rc.table)
    (hi : requestInstr r p data = i) : decode rc ⟨.setup, p.wire ++ data⟩ = .ok i :=
  hi ▸ decode_of_row h hrow (key_and_descriptorMask p)

/-- A selected request has a row that the key matches. -/
theorem ReqCode.row_of_select {key : Word} (h : rc.select key = some r) :
    ∃ row ∈ rc.table, row.request = r ∧ key &&& row.mask = row.value := by
  simp only [ReqCode.select, Option.map_eq_some_iff] at h
  obtain ⟨row, hrow, rfl⟩ := h
  exact ⟨row, List.mem_of_find?_eq_some hrow, rfl, by simpa [RequestRow.selects] using List.find?_some hrow⟩

theorem ReqCode.select_eq_none {key : Word} (h : ∀ row ∈ rc.table, key &&& row.mask ≠ row.value) :
    rc.select key = none := by
  simpa [ReqCode.select, RequestRow.selects] using h

/-- The packet of a control request decodes to that request (R73, R74, R85). -/
theorem decode_packet {i : Instr} (h : rc.Wf) (hp : i.packet? rc = some (p, data)) :
    decode rc ⟨.setup, p.wire ++ data⟩ = .ok i := by
  cases i with
  | getReport tc id w l =>
    cases hp
    exact decode_classRow (r := .getReport) h (by simp [ReqCode.table]) (by simp [requestInstr])
  | getIdle id w l =>
    cases hp
    exact decode_classRow (r := .getIdle) h (by simp [ReqCode.table]) (by simp [requestInstr])
  | getProtocol w l =>
    cases hp
    exact decode_classRow (r := .getProtocol) h (by simp [ReqCode.table]) rfl
  | setReport tc id w l d =>
    cases hp
    exact decode_classRow (r := .setReport) h (by simp [ReqCode.table]) (by simp [requestInstr])
  | setIdle rate id w =>
    cases hp
    exact decode_classRow (r := .setIdle) h (by simp [ReqCode.table]) (by simp [requestInstr])
  | setProtocol v w =>
    cases hp
    exact decode_classRow (r := .setProtocol) h (by simp [ReqCode.table]) rfl
  | getDescriptorHid w l =>
    cases hp
    exact decode_descriptorRow (r := .getDescriptorHid) h (by simp [ReqCode.table]) rfl
  | getDescriptorReport w l =>
    cases hp
    exact decode_descriptorRow (r := .getDescriptorReport) h (by simp [ReqCode.table]) rfl
  | getDescriptorPhysical w l =>
    cases hp
    exact decode_descriptorRow (r := .getDescriptorPhysical) h (by simp [ReqCode.table]) rfl
  | _ => cases hp

/-! ### The operands of CALL and EVENT operations -/

theorem decodeIndexBytes_encoded {op : Byte} {f : Nat → Bytes → Instr} {ix : Nat} {b : Bytes} (h : indexFits ix) :
    decodeIndexBytes op f (wordBytes (BitVec.ofNat 32 ix) ++ b) = .ok (f ix b) := by
  simp only [decodeIndexBytes, takeWord?_wordBytes, toNat_ofNat_index h]

theorem decodeWordOnly_encoded {op : Byte} {f : Word → Instr} {x : Word} :
    decodeWordOnly op f (wordBytes x) = .ok (f x) := by
  have hx : takeWord? (wordBytes x) = some (x, []) := by simpa using takeWord?_wordBytes x []
  simp only [decodeWordOnly, hx]

/-- Settles O1: a request through its packet (`decode_packet`), the others through their op code and operands. -/
theorem decodeOfEncodeGivesTheOperationBack : Obligations.DecodeOfEncodeGivesTheOperationBack := by
  intro rc h i hi
  cases i with
  | writeReport ix b => exact decodeIndexBytes_encoded (op := opWriteReport) (of_decide_eq_true hi)
  | readReport ix =>
    have hix := toNat_ofNat_index (of_decide_eq_true hi)
    exact (decodeWordOnly_encoded (op := opReadReport) (f := fun x => .readReport x.toNat)).trans (by rw [hix])
  | getProtocolCall ix =>
    have hix := toNat_ofNat_index (of_decide_eq_true hi)
    exact (decodeWordOnly_encoded (op := opGetProtocol) (f := fun x => .getProtocolCall x.toNat)).trans (by rw [hix])
  | poll accept =>
    show (decodeDraw (accept.map drawByte)).map Instr.poll = _
    rw [decodeDraw_map]; rfl
  | outData ix b => exact decodeIndexBytes_encoded (op := opOutData) (of_decide_eq_true hi)
  | tick ms => exact decodeWordOnly_encoded (op := opTick)
  | reset => rfl
  | setup p data =>
    show decodeEvent (opSetup :: (p.wire ++ data)) = .ok (.setup p data)
    simp [decodeEvent, opSetup, opPoll, opOutData, opTick, opReset]
  | _ => exact decode_packet h rfl

/-- Settles O2: a matching row is the row selected, because no key matches two rows (R73). -/
theorem setupDecodingFollowsTheRequestTable : Obligations.SetupDecodingFollowsTheRequestTable := by
  intro rc p data h
  refine ⟨fun row hrow hk => decode_of_row h hrow hk, fun hno => ?_⟩
  simp only [Machine.decode_setup, ReqCode.select_eq_none hno]

/-- Settles O6: a pseudo-instruction expands to the packet of the request it names. -/
theorem pseudoInstructionsDecodeToTheirRequests : Obligations.PseudoInstructionsDecodeToTheirRequests := by
  intro rc h x
  cases x with
  | getDescriptor ifn d len => cases d <;> exact decode_packet h rfl
  | _ => exact decode_packet h rfl

/-! ### The `bmRequestType` of a selected request (R72) -/

@[simp] theorem setWidth_classValue (t q : Byte) : (classValue t q).setWidth 8 = t := by
  ext i hi
  simp [classValue]

@[simp] theorem setWidth_descriptorValue (t q d : Byte) : (descriptorValue t q d).setWidth 8 = t := by
  ext i hi
  simp [descriptorValue]

/-- The `bmRequestType` code of a request's row (R73). -/
def ReqCode.requestTypeOf (rc : ReqCode) : Request → Byte
  | .getReport | .getIdle | .getProtocol => rc.classIn
  | .setReport | .setIdle | .setProtocol => rc.classOut
  | .getDescriptorHid | .getDescriptorReport | .getDescriptorPhysical => rc.stdIn

/-- A row looks at the packet's codes, and at nothing else but a descriptor row's high byte (R73). -/
theorem ReqCode.row_cases {row : RequestRow} (h : row ∈ rc.table) :
    (∃ q, row.mask = 0x0000FFFF ∧ row.value = classValue (rc.requestTypeOf row.request) q) ∨
      ∃ q d, row.mask = 0xFF00FFFF ∧ row.value = descriptorValue (rc.requestTypeOf row.request) q d := by
  simp only [ReqCode.table, List.mem_cons, List.not_mem_nil, or_false] at h
  rcases h with rfl | rfl | rfl | rfl | rfl | rfl | rfl | rfl | rfl
  iterate 6 exact .inl ⟨_, rfl, rfl⟩
  iterate 3 exact .inr ⟨_, _, rfl, rfl⟩

/-- A packet that selects a request has the `bmRequestType` of the request's row. -/
theorem bmRequestType_of_select (h : rc.select p.key = some r) : p.bmRequestType = rc.requestTypeOf r := by
  obtain ⟨row, hrow, rfl, hk⟩ := ReqCode.row_of_select h
  rcases ReqCode.row_cases hrow with ⟨q, hmask, hvalue⟩ | ⟨q, d, hmask, hvalue⟩
  · rw [hmask, hvalue, key_and_classMask] at hk
    simpa using congrArg (BitVec.setWidth 8) hk
  · rw [hmask, hvalue, key_and_descriptorMask] at hk
    simpa using congrArg (BitVec.setWidth 8) hk

/-- Settles O3: the packet's `bmRequestType` is the selected row's, which is 0xA1, 0x21 or 0x81 (R72, R73). -/
theorem selectedRequestsAreInterfaceRequests : Obligations.SelectedRequestsAreInterfaceRequests := by
  intro p r h
  rw [bmRequestType_of_select h]
  cases r <;> decide

/-- Settles O4: the decoder evaluates on the written-out words. -/
theorem decoderReadsTheSpecsWords : Obligations.DecoderReadsTheSpecsWords :=
  ⟨rfl, rfl, rfl, rfl, rfl, rfl⟩

/-- Settles O5: the default codes are 1, 2, 3 and 0, 1; a protocol code is widened to the 16 bits of `wValue`. -/
theorem fieldCodesAreTheHidValues : Obligations.FieldCodesAreTheHidValues := ⟨fun _ => rfl, fun _ => rfl⟩

/-! ### Interface lookup (R78) -/

theorem setWidth16_inj {a b : Byte} (h : a.setWidth 16 = b.setWidth 16) : a = b := by
  bv_omega

/-- In a well-formed configuration an interface number stands at one index only (R8). -/
theorem Config.index_of_ifNum {c : Config} (h : c.Wf) {i j : Nat} {a b : IfConfig} (hi : c.ifs[i]? = some a)
    (hj : c.ifs[j]? = some b) (heq : a.ifNum = b.ifNum) : i = j := by
  have hnodup : (c.ifs.map IfConfig.ifNum).Nodup := h.2.1.imp BitVec.ne_of_lt
  have hlen : i < (c.ifs.map IfConfig.ifNum).length := by
    rw [List.length_map]; exact (List.getElem?_eq_some_iff.1 hi).1
  exact (List.getElem?_inj hlen hnodup).1 (by simp [hi, hj, heq])

/-- Settles O7: the lookup finds the first interface whose number matches, and interface numbers are distinct. -/
theorem interfaceLookupIsExactMatch : Obligations.InterfaceLookupIsExactMatch := by
  intro c w i h
  constructor
  · intro hfound
    obtain ⟨hlt, hmatch, -⟩ := List.findIdx?_eq_some_iff_getElem.1 hfound
    exact ⟨c.ifs[i], List.getElem?_eq_getElem hlt, by simpa using hmatch⟩
  · rintro ⟨ic, hic, rfl⟩
    cases hfound : Machine.interfaceIndex c (ic.ifNum.setWidth 16) with
    | none =>
      have hno := List.findIdx?_eq_none_iff.1 hfound ic (List.mem_of_getElem? hic)
      simp at hno
    | some j =>
      obtain ⟨hlt, hmatch, -⟩ := List.findIdx?_eq_some_iff_getElem.1 hfound
      have hnum : c.ifs[j].ifNum = ic.ifNum := setWidth16_inj (by simpa using hmatch)
      rw [Config.index_of_ifNum h (List.getElem?_eq_getElem hlt) hic hnum]

end Sys2Proof
end

section
/-! Steps and the state invariant (20_memory.md R52, 10_state.md R26 and R31): what a step can do, the invariant at
power-on, and that every step keeps it. -/

namespace Sys2Proof.Machine

variable {s t : State} {i : Instr} {o : Presented} {rest : List Presented}

/-! ### What a step does -/

/-- A running device performs the operation presented next. -/
theorem step_of_decode (hw : s.config.Wf) (hrun : s.Running) (hport : s.port = o :: rest)
    (hd : decode s.config.reqCode o = .ok i) : step s = exec i { s with port := rest } := by
  have hfault : s.block.fault = none := hrun
  simp only [step, if_pos hw, unlessFaulted, hfault, State.fetch, hport, hd]

/-- A running device takes bytes that are no operation out of the port and rejects them. -/
theorem step_of_reject {e : DecodeError} (hw : s.config.Wf) (hrun : s.Running) (hport : s.port = o :: rest)
    (hd : decode s.config.reqCode o = .error e) : step s = rejected e { s with port := rest } := by
  have hfault : s.block.fault = none := hrun
  simp only [step, if_pos hw, unlessFaulted, hfault, State.fetch, hport, hd]

/-- With nothing presented nothing happens. -/
theorem step_idle (hw : s.config.Wf) (hrun : s.Running) (hport : s.port = []) : step s = .next s := by
  have hfault : s.block.fault = none := hrun
  simp only [step, if_pos hw, unlessFaulted, hfault, State.fetch, hport]

/-- A packet that selects no request is declined (R79). -/
theorem rejected_notHid (s : State) :
    rejected .notHidRequest s = perform s (fun _ b => decline .notHidRequest b) := rfl

theorem step_faulted {r : FaultReason} (hw : s.config.Wf) (h : s.block.fault = some r) :
    step s = .fault (.sticky r) := by
  simp only [step, if_pos hw, unlessFaulted, h]

/-- A step that answers a next state: it was idle, it performed the presented operation, or it declined a packet. -/
theorem step_next (h : step s = .next t) : t = s ∨
    ∃ o rest, s.port = o :: rest ∧ ((∃ i, exec i { s with port := rest } = .next t) ∨
      t = commit { s with port := rest } (decline .notHidRequest s.block)) := by
  by_cases hw : s.config.Wf
  · cases hf : s.block.fault with
    | some r => rw [step_faulted hw hf] at h; cases h
    | none =>
      cases hport : s.port with
      | nil => rw [step_idle hw hf hport] at h; cases h; exact .inl rfl
      | cons o rest =>
        refine .inr ⟨o, rest, rfl, ?_⟩
        cases hd : decode s.config.reqCode o with
        | ok i => exact .inl ⟨i, (step_of_decode hw hf hport hd).symm.trans h⟩
        | error e =>
          cases e with
          | notHidRequest =>
            rw [step_of_reject hw hf hport hd, rejected_notHid] at h
            exact .inr (perform_next h).2
          | _ => cases (step_of_reject hw hf hport hd).symm.trans h
  · rw [step, if_neg hw] at h; cases h

/-! ### The invariant -/

/-- Every control request keeps the invariant of the cell it reaches. -/
theorem requestMeaning_inv {c : Config} {w : Half} {g : Nat → IfConfig → Cell → CellEffect} {ix : Nat} {ic : IfConfig}
    {cell : Cell} (h : requestMeaning c i = some (w, g)) (hw : ic.Wf) (hc : cell.Inv ic) :
    (g ix ic cell).cell.Inv ic := by
  cases i with
  | getReport => cases h; exact getReportOn_inv hc
  | getIdle => cases h; exact getIdleOn_inv hc
  | setReport => cases h; exact setReportOn_inv hc
  | setIdle => cases h; exact setIdleOn_inv hw hc
  | setProtocol => cases h; exact setProtocolOn_inv hc
  | _ => cases h <;> exact hc

/-- Every operation that names an index keeps the invariant of the cell it reaches. -/
theorem callMeaning_inv {ix : Nat} {g : IfConfig → Cell → Except FaultReason CellEffect} {ic : IfConfig} {cell : Cell}
    {e : CellEffect} (h : callMeaning i = some (ix, g)) (hc : cell.Inv ic) (he : g ic cell = .ok e) :
    e.cell.Inv ic := by
  cases i with
  | writeReport => cases h; exact writeReportOn_inv hc he
  | readReport => cases h; exact readReportOn_inv hc he
  | getProtocolCall => cases h; exact getProtocolOn_inv hc he
  | outData => cases h; exact outDataOn_inv hc he
  | _ => cases h

/-- poll, tick and reset keep the invariant of every cell. -/
theorem serviceMeaning_inv {g : Nat → IfConfig → Cell → Cell × List Event} {ix : Nat} {ic : IfConfig} {cell : Cell}
    (h : serviceMeaning i = some g) (hw : ic.Wf) (hc : cell.Inv ic) : (g ix ic cell).1.Inv ic := by
  cases i with
  | poll => cases h; exact pollCell_inv hw hc
  | tick => cases h; exact tickCell_inv hw hc
  | reset => cases h; exact resetCell_inv hw hc
  | _ => cases h

/-- Every operation keeps the state invariant. -/
theorem exec_inv (hi : s.Inv) (h : exec i s = .next t) : t.Inv := by
  cases (exec_performed h).2 with
  | request hm => exact State.inv_routed hi fun _ _ _ hw hc => requestMeaning_inv hm hw hc
  | setup _ hm => exact State.inv_routed hi fun _ _ _ hw hc => requestMeaning_inv hm hw hc
  | call hm => exact State.inv_onInterface hi fun _ _ _ _ hc he => callMeaning_inv hm hc he
  | service hm => exact State.inv_onEveryInterface hi fun _ _ _ hw hc => serviceMeaning_inv hm hw hc
  | declined => exact hi

/-- Settles O51: the port is no part of the invariant, and every operation keeps it (`exec_inv`). -/
theorem everyStepKeepsTheInvariant : Obligations.EveryStepKeepsTheInvariant := by
  intro s t hi h
  rcases step_next h with rfl | ⟨o, rest, -, ⟨i, hexec⟩ | rfl⟩
  · exact hi
  · exact exec_inv (s := { s with port := rest }) hi hexec
  · exact hi

/-- Settles O50: every cell of the power-on state meets its interface's invariant. -/
theorem powerOnMeetsTheInvariant : Obligations.PowerOnMeetsTheInvariant := by
  intro c hw
  refine ⟨State.inv_of_cells hw (by simp [State.powerOn]) fun ix ic cell hc => ?_, rfl⟩
  obtain ⟨hic, hcell⟩ := hc
  have hpower : (c.ifs.map powerOnCell)[ix]? = some (powerOnCell ic) := by
    rw [List.getElem?_map, show c.ifs[ix]? = some ic from hic]; rfl
  cases hpower.symm.trans hcell
  exact Cell.inv_powerOn

/-- Settles O49: Config C is a device of the family, and its power-on state is safe (O50). -/
theorem resetStateIsSafe : Obligations.ResetStateIsSafe :=
  powerOnMeetsTheInvariant Config.vectorC (by decide)

/-! ### Steps and their stops -/

/-- Settles O8. -/
theorem stepPerformsThePresentedOperation : Obligations.StepPerformsThePresentedOperation := by
  intro s hw hrun
  exact ⟨fun _ _ _ hport hd => step_of_decode hw hrun hport hd, step_idle hw hrun⟩

/-- Settles O9: in the port and as `setup`'s operand the packet is declined, which leaves the state tuple alone. -/
theorem unmatchedPacketsAreDeclined : Obligations.UnmatchedPacketsAreDeclined := by
  intro s p data hw hrun hsel
  refine ⟨⟨_, (exec_setup_none hsel).trans (perform_running hrun), ⟨rfl, rfl, rfl⟩, rfl⟩, fun rest hport => ?_⟩
  have hd : decode s.config.reqCode ⟨.setup, p.wire ++ data⟩ = .error .notHidRequest := by
    simp only [decode_setup, hsel]
  have hstep := (step_of_reject hw hrun hport hd).trans (rejected_notHid _)
  exact ⟨_, hstep.trans (perform_running hrun), ⟨rfl, rfl, rfl⟩, rfl⟩

/-- Settles O10: whatever an operation would do, `perform` and out_data's stop look at the fault register first. -/
theorem faultedBlockHasNoStep : Obligations.FaultedBlockHasNoStep := by
  intro s r hf
  refine ⟨fun i => ?_, fun hw => step_faulted hw hf⟩
  rcases exec_performs i s with ⟨f, h⟩ | ⟨_, _, _, -, -, -, h⟩
  · rw [h, perform_faulted hf]
  · simp only [h, unlessFaulted, hf]

/-- Settles O11. -/
theorem illFormedConfigurationIsRefused : Obligations.IllFormedConfigurationIsRefused :=
  ⟨fun _ => rfl, fun _ hw => if_neg hw⟩

/-- Settles O12: an operation is performed, or is out_data without an OUT endpoint (`exec_performs`). -/
theorem runningBlockPerformsEveryOperation : Obligations.RunningBlockPerformsEveryOperation := by
  intro s i hrun
  rcases exec_performs i s with ⟨f, h⟩ | ⟨ix, b, ic, rfl, hic, hout, h⟩
  · have hnext : exec i s = .next (commit s (f s.config s.block)) := h.trans (perform_running hrun)
    exact .inl ⟨_, _, hnext, rfl, rfl, rfl, exec_next_length hnext⟩
  · have hfault : s.block.fault = none := hrun
    exact .inr ⟨ix, b, ic, rfl, hic, hout, by simp only [h, unlessFaulted, hfault]⟩

end Sys2Proof.Machine
end

section
/-! Application operations and out_data (40_report_buffer.md R105 to R110, 43_endpoint_events.md R194): the shape check,
what is left in a buffer after a report is stored or taken, and the statements about the four operations that name an
interface by index. -/

namespace Sys2Proof.Machine

variable {s t u : State} {i j : Instr} {ix : Nat} {ic : IfConfig} {cell : Cell} {ty : ReportType} {id : ReportId}
  {b : Bytes} {g g' : IfConfig → Cell → Except FaultReason CellEffect} {e e' : CellEffect}

/-! ### Reports and buffers -/

/-- ValidReport checks the report's own ID and that ID's size (R105). -/
theorem validReport_iff :
    validReport ic ty b = some id ↔ reportIdOf ic b = some id ∧ ic.size? ty id = some b.length := by
  simp only [validReport]
  split
  · next hid => simp [hid]
  · next jd hid =>
    rw [hid, Option.some.injEq]
    split
    · next hsize => exact ⟨fun h => by cases h; exact ⟨rfl, hsize⟩, fun h => congrArg some h.1⟩
    · next hsize => exact ⟨fun h => (nomatch h), fun h => absurd (h.1 ▸ h.2) hsize⟩

/-- The ID of a report is its leading byte, or 0 on an interface without IDs (R105). -/
theorem reportIdOf_iff : reportIdOf ic b = some id ↔
    (ic.usesIds = true ∧ ∃ rest, b = id :: rest) ∨ (ic.usesIds = false ∧ id = 0) := by
  cases hu : ic.usesIds
  · simpa [reportIdOf, hu] using eq_comm
  · simp [reportIdOf, hu, List.head?_eq_some_iff]

/-- Settles O14. -/
theorem validReportChecksIdAndLength : Obligations.ValidReportChecksIdAndLength := by
  intro ic ty b id
  rw [validReport_iff, reportIdOf_iff]
  exact ⟨fun ⟨hid, hsize⟩ => ⟨hid, mem_ids_of_size hsize, hsize⟩, fun ⟨hid, _, hsize⟩ => ⟨hid, hsize⟩⟩

/-- What a cell holds after a report is stored in a buffer: the report as the newest, and all else as before (R100). -/
theorem stored_spec (cell : Cell) (ty : ReportType) (id : ReportId) (b : Bytes) :
    let cell' := cell.setBuf ty ((cell.buf ty).write id b)
    cell'.setBuf ty (cell.buf ty) = cell ∧ (cell'.buf ty).get id = some b ∧
      (∀ j, j ≠ id → (cell'.buf ty).get j = (cell.buf ty).get j) ∧
      (cell'.buf ty).order = id :: (cell.buf ty).order.filter (· ≠ id) := by
  intro cell'
  have hbuf : cell'.buf ty = (cell.buf ty).write id b := Cell.buf_setBuf_self ..
  refine ⟨by simp [cell'], ?_, fun j hj => ?_, ?_⟩ <;> rw [hbuf]
  · exact Buffer.get_write_self
  · exact Buffer.get_write_of_ne hj
  · exact Buffer.order_write

/-- What a cell holds after one ID's report is gone from a buffer: the other reports, and all else as before (R101,
R102). -/
theorem erased_spec (cell : Cell) (ty : ReportType) (id : ReportId) (order : List ReportId) :
    let cell' := cell.setBuf ty ⟨Assoc.erase (cell.buf ty).slot id, order⟩
    cell'.setBuf ty (cell.buf ty) = cell ∧ (cell'.buf ty).get id = none ∧
      (∀ j, j ≠ id → (cell'.buf ty).get j = (cell.buf ty).get j) ∧ (cell'.buf ty).order = order := by
  intro cell'
  have hbuf : cell'.buf ty = ⟨Assoc.erase (cell.buf ty).slot id, order⟩ := Cell.buf_setBuf_self ..
  refine ⟨by simp [cell'], ?_, fun j hj => ?_, ?_⟩ <;> rw [hbuf]
  · exact Assoc.get_erase_self
  · exact Assoc.get_erase_of_ne hj

/-! ### Operations by index -/

/-- A next state of an operation that names an index. -/
theorem call_next (hm : callMeaning i = some (ix, g)) (h : exec i s = .next t) :
    t = commit s (onInterface ix g s.config s.block) := by
  cases i with
  | outData => cases hm; exact (exec_outData_next h).2.2
  | writeReport | readReport | getProtocolCall => cases hm; exact (perform_next h).2
  | _ => cases hm

/-- A next state of an operation on an existing interface, whose effect there is known. -/
theorem call_stores (hm : callMeaning i = some (ix, g)) (hc : s.HasCell ix ic cell) (he : g ic cell = .ok e)
    (h : exec i s = .next t) : t.block = s.block.setCell ix e.cell ∧ t.HasCell ix ic e.cell := by
  have ht : t = commit s (s.block.store ix e) := by
    rw [call_next hm h, onInterface_of_cell hc.1 hc.2, he]
  subst ht
  obtain ⟨-, -, hcell, -⟩ := onlyCellBecomes_store hc e
  exact ⟨rfl, hc.1, hcell⟩

/-- A second operation on the same interface overwrites the cell the first one left. -/
theorem call_call (hi : callMeaning i = some (ix, g)) (hj : callMeaning j = some (ix, g')) (hc : s.HasCell ix ic cell)
    (he : g ic cell = .ok e) (he' : g' ic e.cell = .ok e') (ht : exec i s = .next t) (hu : exec j t = .next u) :
    u.block = s.block.setCell ix e'.cell := by
  obtain ⟨hblock, hcell⟩ := call_stores hi hc he ht
  rw [(call_stores hj hcell he' hu).1, hblock]
  simp [Block.setCell]

theorem lacksOutEndpoint_of_hasOutEp (hc : s.config.ifs[ix]? = some ic) (hout : ic.hasOutEp = true) :
    lacksOutEndpoint s.config ix = false := by
  simp [lacksOutEndpoint, hc, hout]

theorem lacksOutEndpoint_of_ge (h : s.config.ifs.length ≤ ix) : lacksOutEndpoint s.config ix = false := by
  simp [lacksOutEndpoint, List.getElem?_eq_none h]

theorem writeReportOn_of_valid (hv : validReport ic .input b = some id) :
    writeReportOn b ic cell = .ok ⟨cell.setBuf .input ((cell.buf .input).write id b), [], .ok⟩ := by
  simp only [writeReportOn, hv]

theorem readReportOn_of_read {rest : Buffer} (hr : (cell.buf .output).read = some (b, rest)) :
    readReportOn ic cell = .ok ⟨cell.setBuf .output rest, [], .report b⟩ := by
  simp only [readReportOn, hr]

theorem outDataOn_of_valid (hv : validReport ic .output b = some id) : outDataOn ix b ic cell =
    .ok ⟨cell.setBuf .output ((cell.buf .output).write id b), [.setReport ix .output id b], .ok⟩ := by
  simp only [outDataOn, hv]

/-- Settles O15: the effect is one buffer write (`stored_spec`). -/
theorem writeReportStoresTheNewestReport : Obligations.WriteReportStoresTheNewestReport := by
  intro s ix ic cell b id hrun hc hv
  obtain ⟨t, ht, hemit, honly⟩ := call_changes hrun hc (i := .writeReport ix b) rfl (writeReportOn_of_valid hv)
  exact ⟨t, _, ht, hemit, honly, stored_spec cell .input id b⟩

/-- Settles O16. -/
theorem writeReportOfWrongShapeFaults : Obligations.WriteReportOfWrongShapeFaults := by
  intro s ix ic cell b hrun hc hv
  have hon : writeReportOn b ic cell = .error .configError := by simp only [writeReportOn, hv]
  exact call_faults hrun (i := .writeReport ix b) rfl (by rw [onInterface_of_cell hc.1 hc.2, hon])

/-- Settles O17: the index is looked at first; out_data has no OUT endpoint to look at there. -/
theorem badInterfaceIndexFaults : Obligations.BadInterfaceIndexFaults := by
  intro s ix b hrun hge i hi
  have hbad : ∀ g, onInterface ix g s.config s.block = raiseFault .noSuchInterface s.block :=
    fun _ => onInterface_of_ge hge
  simp only [List.mem_cons, List.not_mem_nil, or_false] at hi
  rcases hi with rfl | rfl | rfl | rfl
  · exact call_faults hrun rfl (hbad _)
  · exact call_faults hrun rfl (hbad _)
  · exact call_faults hrun rfl (hbad _)
  · exact call_faults hrun (exec_outData (lacksOutEndpoint_of_ge hge)) (hbad _)

/-- Settles O18: the buffer's read finds nothing, or the report at the head of `order`; under the invariant nothing is
pending where no output ID is configured. -/
theorem readReportTakesTheNewestOutputReport : Obligations.ReadReportTakesTheNewestOutputReport := by
  intro s ix hrun
  refine ⟨rfl, rfl, fun hge => call_faults hrun rfl (onInterface_of_ge hge), fun ic cell hc => ?_⟩
  have hempty : (cell.buf .output).order = [] →
      ∃ t, exec (.readReport ix) s = .next t ∧ LeavesBlock s t .wouldBlock := by
    intro ho
    have hread : (cell.buf .output).read = none := by simp only [Buffer.read, ho]
    exact call_leaves hrun hc rfl (show readReportOn ic cell = _ by simp only [readReportOn, hread])
  refine ⟨hempty, fun hinv hids => hempty (List.eq_nil_iff_forall_not_mem.2 fun id hid => ?_), ?_⟩
  · have hmem : id ∈ ic.ids .output := Buffer.inv_mem_ids ((State.inv_cell hinv hc).buf .output) hid
    rw [hids] at hmem
    cases hmem
  · intro id ids b ho hg
    have hread : (cell.buf .output).read = some (b, ⟨Assoc.erase (cell.buf .output).slot id, ids⟩) := by
      simp only [Buffer.read, ho, hg, Option.map_some]
    obtain ⟨t, ht, hemit, honly⟩ := call_changes hrun hc (i := .readReport ix) rfl (readReportOn_of_read hread)
    exact ⟨t, _, ht, hemit, honly, erased_spec cell .output id ids⟩

/-- Settles O19: the answer is the register, which the invariant keeps at Report off boot-capable interfaces (R22). -/
theorem getProtocolCallReturnsTheProtocol : Obligations.GetProtocolCallReturnsTheProtocol := by
  intro s ix hrun
  refine ⟨rfl, rfl, fun hge => call_faults hrun rfl (onInterface_of_ge hge), fun ic cell hc => ?_⟩
  have hanswer : ∃ t, exec (.getProtocolCall ix) s = .next t ∧ LeavesBlock s t (.protocol cell.protocol) :=
    call_leaves hrun hc rfl (show getProtocolOn ic cell = _ from rfl)
  refine ⟨hanswer, fun hinv hboot => ?_⟩
  have hreport : cell.protocol = .report := (State.inv_cell hinv hc).1 hboot
  rwa [hreport] at hanswer

/-- Settles O20: the second write overwrites the cell, and a buffer forgets the first report of the ID
(`Buffer.write_write`). -/
theorem latestReportWins : Obligations.LatestReportWins := by
  intro s t₁ t₂ u ix ic cell b₁ b₂ id hc
  constructor
  · intro hv₁ hv₂ ht₁ ht₂ hu
    rw [call_call rfl rfl hc (writeReportOn_of_valid hv₁) (writeReportOn_of_valid hv₂) ht₁ ht₂,
      (call_stores rfl hc (writeReportOn_of_valid hv₂) hu).1]
    simp [Buffer.write_write]
  · intro hv₁ hv₂ ht₁ ht₂ hu
    rw [call_call rfl rfl hc (outDataOn_of_valid hv₁) (outDataOn_of_valid hv₂) ht₁ ht₂,
      (call_stores rfl hc (outDataOn_of_valid hv₂) hu).1]
    simp [Buffer.write_write]

/-- Settles O45: out_data stores a valid report (`stored_spec`) and drops any other packet. -/
theorem outDataStoresOrDrops : Obligations.OutDataStoresOrDrops := by
  intro s ix ic cell b hrun hc hout
  have hexec := exec_outData (b := b) (lacksOutEndpoint_of_hasOutEp hc.1 hout)
  constructor
  · intro id hv
    obtain ⟨t, ht, hemit, honly⟩ := call_changes hrun hc hexec (outDataOn_of_valid hv)
    exact ⟨t, _, ht, hemit, honly, stored_spec cell .output id b⟩
  · intro hv
    exact call_leaves hrun hc hexec (show outDataOn ix b ic cell = _ by simp only [outDataOn, hv])

/-- Settles O46. -/
theorem outDataWithoutEndpointHasNoStep : Obligations.OutDataWithoutEndpointHasNoStep := by
  intro s ix ic b hrun hic hout
  have hlacks : lacksOutEndpoint s.config ix = true := lacksOutEndpoint_iff.2 ⟨ic, hic, hout⟩
  have hfault : s.block.fault = none := hrun
  simp only [exec, execOutData, hlacks, if_true, unlessFaulted, hfault]

/-- Settles O58: `order` lists each pending ID once (R26), and each pending ID is a configured one. -/
theorem buffersHoldAtMostOneReportPerId : Obligations.BuffersHoldAtMostOneReportPerId := by
  intro s ix ic cell ty hinv hc
  have hbuf : (cell.buf ty).Inv ic ty := (State.inv_cell hinv hc).buf ty
  have hnodup : (cell.buf ty).order.Nodup := hbuf.2.1
  exact ⟨(hnodup.subperm fun _ hid => Buffer.inv_mem_ids hbuf hid).length_le,
    fun id b hg => (validReport_iff.1 (Buffer.valid_of_get hbuf hg)).2⟩

end Sys2Proof.Machine
end

section
/-! Serving every interface (20_memory.md R59): what tick, poll and reset do to each interface and emit for it; and the
Idle Timer's own statements (41_idle_timer.md R131 to R137). -/

namespace Sys2Proof.Machine

variable {s t : State} {i : Instr} {g : Nat → IfConfig → Cell → Cell × List Event} {ix : Nat} {ic : IfConfig}
  {cell : Cell} {id : ReportId} {ms : Word}

/-! ### Every interface in turn -/

/-- An event of a service is one of some interface from the first one on. -/
theorem serviceFrom_iface_le (hg : ∀ i ic cell, ∀ x ∈ (g i ic cell).2, x.iface = i) {n : Nat} {ics : List IfConfig}
    {cells : List Cell} : ∀ x ∈ (serviceFrom g n ics cells).2, n ≤ x.iface := by
  intro x hx
  rw [serviceFrom_events, List.mem_flatMap] at hx
  obtain ⟨p, hp, hx⟩ := hx
  have hn : n ≤ p.2 := List.le_snd_of_mem_zipIdx hp
  rwa [hg _ _ _ x hx]

/-- The events of a service are ordered as they are within one interface and, between two, by the interfaces. -/
theorem serviceFrom_pairwise {R : Event → Event → Prop} (hg : ∀ i ic cell, ∀ x ∈ (g i ic cell).2, x.iface = i)
    (hown : ∀ i ic cell, (g i ic cell).2.Pairwise R) (hlt : ∀ x y : Event, x.iface < y.iface → R x y) (n : Nat)
    (ics : List IfConfig) (cells : List Cell) : (serviceFrom g n ics cells).2.Pairwise R := by
  induction ics generalizing n cells with
  | nil => simp [serviceFrom]
  | cons ic ics ih =>
    cases cells with
    | nil => simp [serviceFrom]
    | cons cell cells =>
      refine List.pairwise_append.2 ⟨hown n ic cell, ih (n + 1) cells, fun x hx y hy => hlt x y ?_⟩
      have hy' : n + 1 ≤ y.iface := serviceFrom_iface_le hg y hy
      rw [hg n ic cell x hx]
      exact hy'

/-- What a service emits for an interface is about that interface. -/
theorem serviceMeaning_iface (hm : serviceMeaning i = some g) :
    ∀ ix ic cell, ∀ x ∈ (g ix ic cell).2, x.iface = ix := by
  intro ix ic cell
  cases i with
  | poll => cases hm; exact pollCell_iface
  | tick => cases hm; exact tickTimers_iface
  | reset => cases hm; exact fun _ hx => (List.not_mem_nil hx).elim
  | _ => cases hm

/-- A service of a running block: each interface's new cell and events are those of its own service. -/
theorem service_performs (hrun : s.Running) (hm : serviceMeaning i = some g) :
    ∃ t events, exec i s = .next t ∧ ServedAll s t events ∧
      events = (serviceFrom g 0 s.config.ifs s.block.cells).2 ∧
      ∀ ix ic cell, s.HasCell ix ic cell →
        t.block.cells[ix]? = some (g ix ic cell).1 ∧ eventsOf ix events = (g ix ic cell).2 := by
  refine ⟨_, _, (exec_serviceMeaning hm).trans (perform_running hrun),
    ⟨⟨rfl, rfl, rfl⟩, rfl, serviceFrom_length ..⟩, rfl, fun ix ic cell hc => ⟨?_, ?_⟩⟩
  · rw [← Nat.zero_add ix]
    simpa [onEveryInterface] using serviceFrom_getElem? (g := g) (i := 0) hc.1 hc.2
  · rw [← Nat.zero_add ix]
    exact serviceFrom_eventsOf (serviceMeaning_iface hm) hc.1 hc.2

/-- A step's events can be read off its output. -/
theorem events_unique {es es' : List Event} {r r' : Result} (h : Emitted s t es r) (h' : Emitted s t es' r') :
    es = es' := by
  have heq := h.2.2.symm.trans h'.2.2
  injection heq with hhead
  injection hhead

/-! ### One timer -/

/-- Settles O22: the three cases of `TimerTick`, with saturating subtraction read in numbers (R131). -/
theorem timerTickFollowsItsRule : Obligations.TimerTickFollowsItsRule := by
  intro t e
  refine ⟨Timer.tick_disabled, fun hrate hle => ?_, fun hrate hlt => ?_⟩
  · rw [Timer.tick_expires hrate (BitVec.le_def.2 hle), dueAfterExpiry, Bool.or_comm]
  · have hsub : saturatingSub t.countdown e = BitVec.ofNat 32 (t.countdown.toNat - e.toNat) := by
      rw [← saturatingSub_toNat, BitVec.ofNat_toNat, BitVec.setWidth_eq]
    rw [Timer.tick_counts hrate (by rw [BitVec.le_def]; omega), hsub]

/-- Ticks that sum to less than the countdown only count down. -/
theorem Timer.ticks_of_lt {t : Timer} {es : List Word} (hrate : t.idleRate ≠ 0)
    (hlt : (es.map BitVec.toNat).sum < t.countdown.toNat) :
    (t.ticks es).2 = 0 ∧ (t.ticks es).1.countdown.toNat = t.countdown.toNat - (es.map BitVec.toNat).sum := by
  induction es generalizing t with
  | nil => exact ⟨rfl, rfl⟩
  | cons e es ih =>
    simp only [List.map_cons, List.sum_cons] at hlt ⊢
    have htick := Timer.tick_counts (e := e) hrate (by rw [BitVec.le_def]; omega)
    have hsub := saturatingSub_toNat (a := t.countdown) (c := e)
    obtain ⟨hcount, hleft⟩ :=
      ih (t := { t with countdown := saturatingSub t.countdown e }) hrate (by simp only [hsub]; omega)
    simp only [Timer.ticks, htick]
    refine ⟨by simp [hcount], ?_⟩
    rw [hleft, hsub]
    omega

/-- Ticks that sum to the countdown expire the timer once and leave a full period: those after the expiry sum to 0. -/
theorem Timer.ticks_of_eq {t : Timer} {es : List Word} (hrate : t.idleRate ≠ 0) (hpos : 0 < t.countdown.toNat)
    (hsum : (es.map BitVec.toNat).sum = t.countdown.toNat) :
    (t.ticks es).2 = 1 ∧ (t.ticks es).1.countdown = period t.idleRate := by
  induction es generalizing t with
  | nil => simp at hsum; omega
  | cons e es ih =>
    simp only [List.map_cons, List.sum_cons] at hsum
    by_cases hle : t.countdown ≤ e
    · have hperiod : 0 < (period t.idleRate).toNat := by
        have hone : 1 ≤ (period t.idleRate).toNat := BitVec.le_def.1 (one_le_period hrate)
        omega
      have hrest : (es.map BitVec.toNat).sum = 0 := by
        rw [BitVec.le_def] at hle
        omega
      obtain ⟨hcount, hleft⟩ := Timer.ticks_of_lt (es := es)
        (t := { t with countdown := period t.idleRate, due := dueAfterExpiry t }) hrate (by rwa [hrest])
      simp only [Timer.ticks, Timer.tick_expires hrate hle]
      refine ⟨by simp [hcount], BitVec.eq_of_toNat_eq ?_⟩
      rw [hleft, hrest, Nat.sub_zero]
    · have hsub := saturatingSub_toNat (a := t.countdown) (c := e)
      rw [BitVec.le_def] at hle
      obtain ⟨hcount, hleft⟩ := ih (t := { t with countdown := saturatingSub t.countdown e }) hrate
        (by simp only [hsub]; omega) (by simp only [hsub]; omega)
      simp only [Timer.ticks, Timer.tick_counts hrate (by rwa [BitVec.le_def])]
      exact ⟨by simp [hcount], hleft⟩

/-- Settles O24: a fresh window's countdown is the period (`Timer.ticks_of_eq`, `Timer.ticks_of_lt`). -/
theorem oneExpiryPerPeriod : Obligations.OneExpiryPerPeriod := by
  intro t es hrate hfresh
  have hcountdown : t.countdown.toNat = t.idleRate.toNat * 4 := by rw [hfresh, period_toNat]
  have hpos : 0 < t.idleRate.toNat :=
    Nat.pos_of_ne_zero fun h0 => hrate (BitVec.eq_of_toNat_eq h0)
  rw [← hcountdown]
  exact ⟨Timer.ticks_of_eq hrate (by omega), Timer.ticks_of_lt hrate⟩

/-! ### tick -/

/-- Settles O23: each interface's timers are ticked in rising order of their IDs (`tickTimers_events`), and interfaces
are served in their order. -/
theorem tickAdvancesEveryTimer : Obligations.TickAdvancesEveryTimer := by
  intro s ms hrun hw
  obtain ⟨t, events, ht, hserved, hevents, hcells⟩ := service_performs hrun (i := .tick ms) rfl
  refine ⟨t, events, ht, hserved, ?_, fun ix ic cell hc => ?_⟩
  · rw [hevents]
    refine serviceFrom_pairwise (fun _ _ _ => tickTimers_iface) (fun n ic cell => ?_) (fun _ _ => Nat.le_of_lt) 0 _ _
    exact List.pairwise_of_forall_mem_list fun x hx y hy => by
      rw [tickTimers_iface x hx, tickTimers_iface y hy]
  · obtain ⟨hcell, hown⟩ := hcells ix ic cell hc
    have hnodup : (ic.ids .input).Nodup := IfConfig.ids_nodup (hw.2.2.1 ic (List.mem_of_getElem? hc.1)) .input
    obtain ⟨ts, hframe⟩ := tickTimers_frame ix ms (ic.ids .input) cell
    refine ⟨_, hcell, ?_, fun id hid => tickTimers_timer_of_mem hnodup hid,
      fun id hid => tickTimers_timer_of_notMem hid, hown.trans (tickTimers_events hnodup)⟩
    rw [tickCell, hframe]
    exact ⟨rfl, rfl, fun ty => by cases ty <;> rfl⟩

/-- A disabled timer goes through an interface's ticks unchanged and without an event, whatever IDs are listed. -/
theorem tickTimers_disabled {n : Nat} {ids : List ReportId} (h : (cell.timer id).idleRate = 0) :
    (tickTimers n ms ids cell).1.timer id = cell.timer id ∧ .idleExpired n id ∉ (tickTimers n ms ids cell).2 := by
  induction ids generalizing cell with
  | nil => exact ⟨rfl, by simp [tickTimers]⟩
  | cons j ids ih =>
    have hkeep : (cell.setTimer j ((cell.timer j).tick ms).1).timer id = cell.timer id := by
      by_cases hj : id = j
      · subst hj; rw [Cell.timer_setTimer_self, Timer.tick_disabled h]
      · exact Cell.timer_setTimer_of_ne _ _ hj
    obtain ⟨htimer, hno⟩ := ih (cell := cell.setTimer j ((cell.timer j).tick ms).1) (by rw [hkeep, h])
    refine ⟨htimer.trans hkeep, ?_⟩
    simp only [tickTimers]
    split
    · next hexp =>
      have hj : id ≠ j := by rintro rfl; simp [Timer.tick_disabled h] at hexp
      simp [hno, hj]
    · exact hno

/-- Settles O25: the events of an interface are its own (`service_performs`), and a disabled timer has none. -/
theorem rateZeroNeverExpires : Obligations.RateZeroNeverExpires := by
  intro s t ms o ix ic cell cell' id h htrace hc hcell' hrate
  obtain ⟨t', events, ht', hserved, -, hcells⟩ := service_performs (exec_next h).1 (i := .tick ms) rfl
  cases h.symm.trans ht'
  obtain ⟨hcell, hown⟩ := hcells ix ic cell hc
  cases hcell.symm.trans hcell'
  have ho : o.events = events := by
    injection htrace.symm.trans hserved.1.2.2 with hhead
    rw [hhead]
  obtain ⟨htimer, hno⟩ := tickTimers_disabled (n := ix) (ms := ms) (ids := ic.ids .input) hrate
  refine ⟨fun hmem => hno ?_, htimer⟩
  rw [ho] at hmem
  have hmine : Event.idleExpired ix id ∈ eventsOf ix events := List.mem_filter.2 ⟨hmem, beq_self_eq_true ix⟩
  rwa [hown] at hmine

end Sys2Proof.Machine
end

section
/-! poll (43_endpoint_events.md R190 to R195): what an interface would send, what is left after it was sent, and the
statements about one poll and about a written report's way out. -/

namespace Sys2Proof.Machine

variable {s t : State} {accept : List Bool} {ix : Nat} {ic : IfConfig} {cell : Cell} {id : ReportId}
  {ids : List ReportId} {b : Bytes} {x : Candidate}

/-! ### The candidate -/

theorem candidate_of_order (ho : (cell.buf .input).order = id :: ids) (hg : (cell.buf .input).get id = some b) :
    candidate ic cell = some ⟨.fresh, id, b⟩ := by
  simp [candidate, freshCandidate, ho, hg]

theorem candidate_of_due (ho : (cell.buf .input).order = [])
    (hdue : (ic.ids .input).find? (fun j => (cell.timer j).due) = some id)
    (hlast : (cell.timer id).lastReport = some b) :
    candidate ic cell = some ⟨.retransmit, id, b⟩ := by
  simp only [candidate, if_pos ho, dueCandidate, hdue, hlast, Option.map_some]

theorem candidate_eq_none (ho : (cell.buf .input).order = [])
    (hdue : ∀ j ∈ ic.ids .input, (cell.timer j).due = false) : candidate ic cell = none := by
  have hfind : (ic.ids .input).find? (fun j => (cell.timer j).due) = none := by simpa using hdue
  simp only [candidate, if_pos ho, dueCandidate, hfind]

/-- In the invariant, a pending report or an armed retransmission is something to send. -/
theorem exists_candidate (h : cell.Inv ic)
    (hsome : (cell.buf .input).order ≠ [] ∨ ∃ j ∈ ic.ids .input, (cell.timer j).due = true) :
    ∃ x, candidate ic cell = some x := by
  cases ho : (cell.buf .input).order with
  | cons id ids =>
    obtain ⟨b, hg, -⟩ := Buffer.read_of_order (h.buf .input) ho
    exact ⟨_, candidate_of_order ho hg⟩
  | nil =>
    obtain ⟨j, hj, hdue⟩ := hsome.resolve_left (fun hne => hne ho)
    obtain ⟨id, hid⟩ := Option.isSome_iff_exists.1
      (List.find?_isSome (p := fun j => (cell.timer j).due).2 ⟨j, hj, hdue⟩)
    obtain ⟨-, -, harmed, -⟩ := h.timer (List.mem_of_find?_eq_some hid)
    obtain ⟨b, hlast⟩ := Option.isSome_iff_exists.1 (harmed (by simpa using List.find?_some hid)).2
    exact ⟨_, candidate_of_due ho hid hlast⟩

/-! ### poll on one interface -/

theorem pollCell_of_none (hx : candidate ic cell = none) : pollCell accept ix ic cell = (cell, []) := by
  simp only [pollCell, hx]

theorem pollCell_of_accepted (hx : candidate ic cell = some x) (ha : accepted accept ix = true) :
    pollCell accept ix ic cell = (sent x cell, [.inTransmit ix x.bytes]) := by
  simp only [pollCell, hx, ha, if_true]

theorem pollCell_of_busy (hx : candidate ic cell = some x) (ha : accepted accept ix = false) :
    pollCell accept ix ic cell = (cell, [.inBusy ix]) := by
  simp [pollCell, hx, ha]

/-- An interface's poll reads nothing of the draw but its own entry (R192). -/
theorem pollCell_congr {accept' : List Bool} (h : accepted accept ix = accepted accept' ix) :
    pollCell accept ix ic cell = pollCell accept' ix ic cell := by
  simp only [pollCell, h]

theorem pollCell_length_le : (pollCell accept ix ic cell).2.length ≤ 1 := by
  simp only [pollCell]
  split
  · simp
  · split <;> simp

/-- A fresh report leaves the buffer, and its own timer's window restarts (R190, R133). -/
theorem sent_fresh (ho : (cell.buf .input).order = id :: ids) (hg : (cell.buf .input).get id = some b) :
    sent ⟨.fresh, id, b⟩ cell = (cell.setBuf .input ⟨Assoc.erase (cell.buf .input).slot id, ids⟩).setTimer id
      ((cell.timer id).noteSent b) := by
  have hread : (cell.buf .input).read = some (b, ⟨Assoc.erase (cell.buf .input).slot id, ids⟩) := by
    simp only [Buffer.read, ho, hg, Option.map_some]
  simp [sent, hread]

theorem sent_retransmit :
    sent ⟨.retransmit, id, b⟩ cell = cell.setTimer id ((cell.timer id).noteSent b) := rfl

/-- Settles O40: the candidate is the newest pending report (`candidate_of_order`), and `sent_fresh` says what is
left. -/
theorem pollTransmitsTheNewestPendingReport : Obligations.PollTransmitsTheNewestPendingReport := by
  intro s accept ix ic cell id ids b hrun hc ho hg ha
  obtain ⟨t, events, ht, hserved, -, hcells⟩ := service_performs hrun (i := .poll accept) rfl
  obtain ⟨hcell, hown⟩ := hcells ix ic cell hc
  rw [pollCell_of_accepted (candidate_of_order ho hg) ha, sent_fresh ho hg] at hcell hown
  obtain ⟨-, hgone, hother, horder⟩ := erased_spec cell .input id ids
  exact ⟨t, events, _, ht, hserved, hown, hcell, by rw [Cell.buf_setTimer]; exact horder,
    by rw [Cell.buf_setTimer]; exact hgone, fun j hj => by rw [Cell.buf_setTimer]; exact hother j hj,
    Cell.timer_setTimer_self ..,
    fun j hj => (Cell.timer_setTimer_of_ne _ _ hj).trans (Cell.timer_setBuf ..), by simp, by simp, by simp, by simp⟩

/-- The lowest due ID is the one found: configured IDs rise (R11, R191). -/
theorem find?_lowest_due (hw : ic.Wf) (hid : id ∈ ic.ids .input) (hdue : (cell.timer id).due = true)
    (hlow : ∀ j ∈ ic.ids .input, j < id → (cell.timer j).due = false) :
    (ic.ids .input).find? (fun j => (cell.timer j).due) = some id := by
  have hsorted : (ic.ids .input).Pairwise (· < ·) := (hw.1 .input (mem_all _)).1
  obtain ⟨before, after, hsplit⟩ := List.append_of_mem hid
  refine List.find?_eq_some_iff_append.2 ⟨hdue, before, after, hsplit, fun j hj => ?_⟩
  rw [hsplit, List.pairwise_append] at hsorted
  have hlt : j < id := hsorted.2.2 j hj id (by simp)
  simp [hlow j (by simp [hsplit, hj]) hlt]

/-- Settles O41: the candidate is the lowest due ID's last report (`find?_lowest_due`). -/
theorem pollRetransmitsTheLowestDueReport : Obligations.PollRetransmitsTheLowestDueReport := by
  intro s accept ix ic cell id b hrun hw hc ho hid hdue hlow hlast ha
  obtain ⟨t, events, ht, hserved, -, hcells⟩ := service_performs hrun (i := .poll accept) rfl
  obtain ⟨hcell, hown⟩ := hcells ix ic cell hc
  have hfind := find?_lowest_due (hw.2.2.1 ic (List.mem_of_getElem? hc.1)) hid hdue hlow
  rw [pollCell_of_accepted (candidate_of_due ho hfind hlast) ha, sent_retransmit] at hcell hown
  exact ⟨t, events, _, ht, hserved, hown, hcell, ⟨rfl, rfl, fun ty => Cell.buf_setTimer ..⟩,
    Cell.timer_setTimer_self .., fun j hj => Cell.timer_setTimer_of_ne _ _ hj⟩

/-- Settles O42: without a candidate nothing happens, and without acceptance a candidate is reported as waiting. -/
theorem pollWithoutTransmissionLeavesTheCell : Obligations.PollWithoutTransmissionLeavesTheCell := by
  intro s accept ix ic cell hinv hrun hc
  obtain ⟨t, events, ht, hserved, -, hcells⟩ := service_performs hrun (i := .poll accept) rfl
  obtain ⟨hcell, hown⟩ := hcells ix ic cell hc
  refine ⟨t, events, ht, hserved, fun ho hdue => ?_, fun ha => ⟨?_, fun hsome => ?_⟩⟩
  · rw [pollCell_of_none (candidate_eq_none ho hdue)] at hcell hown
    exact ⟨hcell, hown⟩
  · cases hx : candidate ic cell with
    | none => rwa [pollCell_of_none hx] at hcell
    | some x => rwa [pollCell_of_busy hx ha] at hcell
  · obtain ⟨x, hx⟩ := exists_candidate (State.inv_cell hinv hc) hsome
    rwa [pollCell_of_busy hx ha] at hown

/-- Settles O43: a poll emits at most one event per interface (`pollCell_length_le`), and an interface's part reads its
configuration, its cell and its own draw (`pollCell_congr`). -/
theorem pollServesInterfacesInOrderAndAlone : Obligations.PollServesInterfacesInOrderAndAlone := by
  constructor
  · intro s t accept h
    obtain ⟨t', events, ht', hserved, hevents, -⟩ := service_performs (exec_next h).1 (i := .poll accept) rfl
    cases h.symm.trans ht'
    refine ⟨events, hserved, ?_⟩
    rw [hevents]
    refine serviceFrom_pairwise (fun _ _ _ => pollCell_iface) (fun n ic cell => ?_) (fun _ _ hlt => hlt) 0 _ _
    have hlen := pollCell_length_le (accept := accept) (ix := n) (ic := ic) (cell := cell)
    match hout : (pollCell accept n ic cell).2, hlen with
    | [], _ => exact List.Pairwise.nil
    | [x], _ => exact List.pairwise_singleton _ x
  · intro s₁ s₂ t₁ t₂ a₁ a₂ e₁ e₂ ix ic cell hc₁ hc₂ ha h₁ h₂ hs₁ hs₂
    obtain ⟨u₁, v₁, hu₁, hserved₁, -, hcells₁⟩ := service_performs (exec_next h₁).1 (i := .poll a₁) rfl
    obtain ⟨u₂, v₂, hu₂, hserved₂, -, hcells₂⟩ := service_performs (exec_next h₂).1 (i := .poll a₂) rfl
    cases h₁.symm.trans hu₁
    cases h₂.symm.trans hu₂
    obtain ⟨hcell₁, hown₁⟩ := hcells₁ ix ic cell hc₁
    obtain ⟨hcell₂, hown₂⟩ := hcells₂ ix ic cell hc₂
    rw [events_unique hs₁.1 hserved₁.1, events_unique hs₂.1 hserved₂.1, hcell₁, hcell₂, hown₁, hown₂,
      pollCell_congr ha]
    exact ⟨rfl, rfl⟩

/-- A disabled timer has no retransmission armed (R31). -/
theorem due_of_rate_zero (h : cell.Inv ic) (hid : id ∈ ic.ids .input) (hrate : (cell.timer id).idleRate = 0) :
    (cell.timer id).due = false := by
  obtain ⟨-, -, harmed, -⟩ := h.timer hid
  exact Bool.eq_false_iff.2 fun hdue => (harmed hdue).1 hrate

/-- After the only pending report went out nothing is left to send, as long as no other timer is due. -/
theorem candidate_sent_eq_none (ho : (cell.buf .input).order = [id]) (hg : (cell.buf .input).get id = some b)
    (hdue : ∀ j ∈ ic.ids .input, (cell.timer j).due = false) :
    ((sent ⟨.fresh, id, b⟩ cell).buf .input).order = [] ∧ candidate ic (sent ⟨.fresh, id, b⟩ cell) = none := by
  rw [sent_fresh ho hg]
  refine ⟨by simp, candidate_eq_none (by simp) fun j hj => ?_⟩
  by_cases hji : j = id
  · subst hji; simp [Timer.noteSent, dueAfterSent]
  · simpa [hji] using hdue j hj

/-- Two polls of an interface with one pending report and nothing due: the first, accepted, sends it, and the second
sends nothing. -/
theorem polls_send_once {a₁ a₂ : List Bool} (hrun : s.Running) (hc : s.HasCell ix ic cell)
    (ho : (cell.buf .input).order = [id]) (hg : (cell.buf .input).get id = some b)
    (hdue : ∀ j ∈ ic.ids .input, (cell.timer j).due = false) (ha : accepted a₁ ix = true) :
    ∃ t₂ t₃ e₂ e₃ cell₂, exec (.poll a₁) s = .next t₂ ∧ exec (.poll a₂) t₂ = .next t₃ ∧ ServedAll s t₂ e₂ ∧
      ServedAll t₂ t₃ e₃ ∧ eventsOf ix e₂ = [.inTransmit ix b] ∧ eventsOf ix e₃ = [] ∧
      t₂.block.cells[ix]? = some cell₂ ∧ (cell₂.buf .input).order = [] := by
  obtain ⟨horder, hnone⟩ := candidate_sent_eq_none ho hg hdue
  obtain ⟨t₂, e₂, ht₂, hserved₂, -, hcells₂⟩ := service_performs hrun (i := .poll a₁) rfl
  obtain ⟨hcell₂, hown₂⟩ := hcells₂ ix ic cell hc
  rw [pollCell_of_accepted (candidate_of_order ho hg) ha] at hcell₂ hown₂
  have hconfig : t₂.config = s.config := hserved₂.1.1
  have hrun₂ : t₂.Running := hserved₂.2.1.trans hrun
  obtain ⟨t₃, e₃, ht₃, hserved₃, -, hcells₃⟩ := service_performs hrun₂ (i := .poll a₂) rfl
  obtain ⟨-, hown₃⟩ := hcells₃ ix ic (sent ⟨.fresh, id, b⟩ cell) ⟨hconfig ▸ hc.1, hcell₂⟩
  rw [pollCell_of_none hnone] at hown₃
  exact ⟨t₂, t₃, e₂, e₃, _, ht₂, ht₃, hserved₂, hserved₃, hown₂, hown₃, hcell₂, horder⟩

/-- Settles O44: after the write the report is the only one pending, and nothing is due because every timer is disabled,
so the first poll sends it and the second finds nothing (`polls_send_once`). -/
theorem writtenReportGoesOutOnce : Obligations.WrittenReportGoesOutOnce := by
  intro s a₁ a₂ ix ic cell b id hinv hrun hc ho hrates hv ha
  obtain ⟨t₁, ht₁, ⟨hconfig, -, -⟩, hfault, -, hcell, -⟩ :=
    call_changes hrun hc (i := .writeReport ix b) rfl (writeReportOn_of_valid hv)
  obtain ⟨-, hget, -, horder⟩ := stored_spec cell .input id b
  have hdue : ∀ j ∈ ic.ids .input, ((cell.setBuf .input ((cell.buf .input).write id b)).timer j).due = false := by
    intro j hj
    rw [Cell.timer_setBuf]
    exact due_of_rate_zero (State.inv_cell hinv hc) hj (hrates j hj)
  rw [ho] at horder
  obtain ⟨t₂, t₃, e₂, e₃, cell₂, hpolls⟩ :=
    polls_send_once (a₂ := a₂) (hfault.trans hrun) ⟨hconfig ▸ hc.1, hcell⟩ horder hget hdue ha
  exact ⟨t₁, t₂, t₃, e₂, e₃, cell₂, ht₁, hpolls⟩

end Sys2Proof.Machine
end

section
/-! Power-on and reset (10_state.md section 8, 70_reset_and_hazards.md R240). -/

namespace Sys2Proof.Machine

variable {ic : IfConfig} {cell : Cell} {id : ReportId} {ids : List ReportId}

theorem Assoc.get_map_const {α : Type} {x : α} (h : id ∈ ids) : Assoc.get (ids.map fun j => (j, x)) id = some x := by
  induction ids with
  | nil => cases h
  | cons j ids ih =>
    by_cases hj : j = id
    · simp [Assoc.get, hj]
    · simpa [Assoc.get, hj] using ih ((List.mem_cons.1 h).resolve_left (Ne.symm hj))

/-- Settles O47: each cell is the power-on cell of its interface, whose timers all have the reset values. -/
theorem powerOnHasTheResetValues : Obligations.PowerOnHasTheResetValues := by
  intro c
  refine ⟨rfl, by simp [State.powerOn], fun i ic hic => ⟨powerOnCell ic, ?_, rfl, rfl, fun ty id => ?_, fun ty => ?_,
    fun id hid => ?_⟩⟩
  · simp [State.powerOn, hic]
  · cases ty <;> rfl
  · cases ty <;> rfl
  · have htimer : (powerOnCell ic).timer id = powerOnTimer ic := by
      simp [Cell.timer, powerOnCell, Assoc.get_map_const hid]
    rw [htimer]
    exact ⟨rfl, period_toNat, rfl, rfl⟩

/-- reset rewrites timers only, one after the other. -/
theorem resetTimers_eq_foldl : resetTimers ic ids cell =
    { cell with timers := ids.foldl (fun m id => Assoc.set m id (resetTimer ic)) cell.timers } := by
  induction ids generalizing cell with
  | nil => rfl
  | cons id ids ih => exact ih (cell := cell.setTimer id (resetTimer ic))

/-- A listed timer has the reset values, whatever was written before. -/
theorem resetTimers_timer (h : id ∈ ids ∨ cell.timer id = resetTimer ic) :
    (resetTimers ic ids cell).timer id = resetTimer ic := by
  induction ids generalizing cell with
  | nil => exact h.resolve_left List.not_mem_nil
  | cons j ids ih =>
    refine ih (cell := cell.setTimer j (resetTimer ic)) ?_
    by_cases hj : id = j
    · subst hj; exact .inr (Cell.timer_setTimer_self ..)
    · rw [Cell.timer_setTimer_of_ne _ _ hj]
      exact h.imp_left fun hmem => (List.mem_cons.1 hmem).resolve_left hj

/-- A map that holds `x` for each ID it lists is the constant one. -/
theorem Assoc.eq_map_const {α : Type} {x : α} {m : List (ReportId × α)} (hs : Assoc.Sorted m)
    (hx : ∀ id ∈ m.map Prod.fst, Assoc.get m id = some x) : m = (m.map Prod.fst).map fun j => (j, x) := by
  rw [List.map_map]
  refine (List.map_id m).symm.trans (List.map_congr_left fun p hp => ?_)
  have hget := (Assoc.get_of_mem hs hp).symm.trans (hx p.1 (List.mem_map_of_mem hp))
  exact Prod.ext rfl (Option.some.inj hget)

/-- reset rewrites a cell whole, but for the default rate where the register does not exist (R240). -/
theorem resetCell_eq {n : Nat} : (resetCell n ic cell).1 =
    ⟨.report, if ic.usesIds then ic.idleReset else cell.idleDefault, .empty, .empty, .empty,
      (ic.ids .input).foldl (fun m id => Assoc.set m id (resetTimer ic)) cell.timers⟩ := by
  simp only [resetCell, resetTimers_eq_foldl]
  split <;> rfl

/-- reset puts a cell that meets the invariant into its power-on state (R240, R36). -/
theorem resetCell_eq_powerOn {n : Nat} (hw : ic.Wf) (h : cell.Inv ic) : (resetCell n ic cell).1 = powerOnCell ic := by
  have hinv : (resetCell n ic cell).1.Inv ic := resetCell_inv hw h
  have hkeys : (resetCell n ic cell).1.timers.map Prod.fst = ic.ids .input := hinv.2.2.2.1
  have hsorted : Assoc.Sorted (resetCell n ic cell).1.timers := by
    rw [Assoc.Sorted, hkeys]
    exact (hw.1 .input (mem_all _)).1
  have htimers : (resetCell n ic cell).1.timers = (ic.ids .input).map fun id => (id, powerOnTimer ic) := by
    rw [← hkeys]
    refine Assoc.eq_map_const hsorted fun id hid => ?_
    obtain ⟨x, hx⟩ := Option.isSome_iff_exists.1 (Assoc.isSome_get_iff.2 hid)
    have htimer : (resetCell n ic cell).1.timer id = resetTimer ic := resetTimers_timer (.inl (hkeys ▸ hid))
    rw [Cell.timer, hx] at htimer
    exact hx.trans (congrArg some htimer)
  have hdefault : (if ic.usesIds then ic.idleReset else cell.idleDefault) = ic.idleReset := by
    cases hu : ic.usesIds
    · exact h.2.1 hu
    · rfl
  rw [resetCell_eq] at htimers ⊢
  rw [hdefault]
  exact congrArg (Cell.mk .report ic.idleReset .empty .empty .empty) htimers

/-- Settles O48: every interface's cell is put into its power-on state (`resetCell_eq_powerOn`), and no interface emits
anything. -/
theorem resetRestoresThePowerOnState : Obligations.ResetRestoresThePowerOnState := by
  intro s hinv hrun
  obtain ⟨t, events, ht, ⟨hemit, hfault, hlength⟩, hevents, hcells⟩ := service_performs hrun (i := .reset) rfl
  have hnone : events = [] := by
    rw [hevents, serviceFrom_events]
    exact List.flatMap_eq_nil_iff.2 fun _ _ => rfl
  refine ⟨t, ht, hnone ▸ hemit, ?_⟩
  have hcellsEq : t.block.cells = s.config.ifs.map powerOnCell := by
    refine List.ext_getElem (by rw [hlength, hinv.2.1, List.length_map]) fun ix hlt hlt' => ?_
    have hic : s.config.ifs[ix]? = some (s.config.ifs[ix]'(by simpa using hlt')) := List.getElem?_eq_getElem _
    have hcell : s.block.cells[ix]? = some (s.block.cells[ix]'(hlength ▸ hlt)) := List.getElem?_eq_getElem _
    have hnew := (hcells ix _ _ ⟨hic, hcell⟩).1
    rw [resetCell_eq_powerOn (State.inv_ifc hinv hic) (State.inv_cell hinv ⟨hic, hcell⟩)] at hnew
    rw [List.getElem_map]
    exact (List.getElem?_eq_some_iff.1 hnew).2
  calc t.block = ⟨t.block.cells, t.block.fault⟩ := rfl
    _ = ⟨s.config.ifs.map powerOnCell, none⟩ := by rw [hcellsEq, hfault.trans hrun]

end Sys2Proof.Machine
end

section
/-! Control requests (42_control_requests.md R150 to R161): routing, what each request does to the cell it reaches, and
that none of them faults. -/

namespace Sys2Proof.Machine

variable {s t : State} {i : Instr} {w wLength v : Half} {c : Config} {n ix : Nat} {ic : IfConfig} {cell : Cell}
  {ty : ReportType} {tc id rate : Byte} {data : Bytes} {g : Nat → IfConfig → Cell → CellEffect}

/-! ### Routing and completion -/

/-- A request whose number is no interface's is declined (R78, R82(b)). -/
theorem exec_request_declined (hrun : s.Running) (hi : requestIndex i = some w)
    (hw : interfaceIndex s.config w = none) :
    exec i s = .next (commit s (decline .noSuchInterfaceNumber s.block)) := by
  obtain ⟨g, hg⟩ := requestMeaning_of_index (c := s.config) hi
  rw [exec_requestMeaning hg, perform_running hrun, routed, hw]

/-- Settles O26. -/
theorem unknownInterfaceNumberIsDeclined : Obligations.UnknownInterfaceNumberIsDeclined := by
  intro s i w hrun hi hw
  exact ⟨_, exec_request_declined hrun hi hw, ⟨rfl, rfl, rfl⟩, rfl⟩

/-- What a request's effect on the block can end with (R150, R216, R217). -/
theorem routed_result (h : requestMeaning c i = some (w, g)) (b : Block) :
    (routed w g c b).result = .ack ∨ (∃ v, (routed w g c b).result = .data v) ∨
      (∃ q, (routed w g c b).result = .stall q) ∨ ∃ q, (routed w g c b).result = .unhandled q := by
  rcases routed_cases w g c b with hdecline | ⟨ix, ic, cell, -, -, -, hstore⟩
  · exact .inr (.inr (.inr ⟨_, by rw [hdecline]; rfl⟩))
  · have heffect : RequestEffect c ix cell i (g ix ic cell) := requestMeaning_effect h
    rw [hstore]
    generalize g ix ic cell = e at heffect ⊢
    cases heffect with
    | stalled r => exact .inr (.inr (.inl ⟨r, rfl⟩))
    | answered v | taken _ _ _ _ _ v => exact .inr (.inl ⟨_, rfl⟩)
    | stored | rated | switched => exact .inl rfl

/-- A request of a running block completes without a fault. -/
theorem exec_request_completes (hrun : s.Running) (h : requestMeaning s.config i = some (w, g)) :
    ∃ t events r, exec i s = .next t ∧ Emitted s t events r ∧ t.Running ∧
      (r = .ack ∨ (∃ v, r = .data v) ∨ (∃ q, r = .stall q) ∨ ∃ q, r = .unhandled q) :=
  ⟨_, _, _, (exec_requestMeaning h).trans (perform_running hrun), emitted_commit .., (routed_fault ..).trans hrun,
    routed_result h s.block⟩

/-- Settles O38: a request by itself completes (`exec_request_completes`), and setup is the request its packet selects,
or declines the packet. -/
theorem controlRequestsNeverFault : Obligations.ControlRequestsNeverFault := by
  intro s i hrun hi
  rcases hi with hformat | ⟨p, data, rfl⟩
  · obtain ⟨w, hw⟩ := Option.isSome_iff_exists.1 (requestIndex_isSome.2 hformat)
    obtain ⟨g, hg⟩ := requestMeaning_of_index (c := s.config) hw
    exact exec_request_completes hrun hg
  · cases hsel : s.config.reqCode.select p.key with
    | none =>
      exact ⟨_, _, _, (exec_setup_none hsel).trans (perform_running hrun), emitted_commit .., hrun,
        .inr (.inr (.inr ⟨_, rfl⟩))⟩
    | some r =>
      obtain ⟨g, hg⟩ := requestMeaning_requestInstr s.config r p data
      rw [exec_setup hsel]
      exact exec_request_completes hrun hg

/-- Settles O37. -/
theorem setupRunsTheSelectedRequest : Obligations.SetupRunsTheSelectedRequest := by
  intro s p data r hrun hsel
  obtain ⟨g, hg⟩ := requestMeaning_requestInstr s.config r p data
  obtain ⟨t, events, res, ht, hemit, -⟩ := exec_request_completes hrun hg
  exact ⟨t, events, res, (exec_setup hsel).trans ht, ht, hemit⟩

/-- Settles O39: in both states the request stores the same cell effect, which reads the configuration and the cell. -/
theorem requestsAreIsolatedToTheirInterface : Obligations.RequestsAreIsolatedToTheirInterface := by
  intro s₁ s₂ t₁ i w ix ic cell hconfig hrun₁ hrun₂ hi hr₁ hr₂ h₁
  obtain ⟨g, hg₁⟩ := requestMeaning_of_index (c := s₁.config) hi
  have hg₂ : requestMeaning s₂.config i = some (w, g) := hconfig ▸ hg₁
  cases h₁.symm.trans (exec_request_routes hrun₁ hr₁ hg₁)
  exact ⟨_, _, _, exec_request_routes hrun₂ hr₂ hg₂, rfl, rfl, onlyCellBecomes_store hr₁.2 _,
    onlyCellBecomes_store hr₂.2 _⟩

/-! ### Report requests -/

/-- GET_REPORT of a configured report: the pending report or the zeroed one; the report is taken when
GET_REPORT_CONSUMES (R152). -/
theorem getReportOn_known (hty : reportTypeOf c.reqCode tc = some ty) (hid : id ∈ ic.ids ty) :
    getReportOn c tc id wLength n ic cell = answer wLength (((cell.buf ty).get id).getD (zeroReport ic ty id))
      (if c.getReportConsumes then cell.setBuf ty ((cell.buf ty).take id).2 else cell) := by
  simp only [getReportOn, hty, if_pos hid]
  split <;> rfl

/-- The zeroed report has the report's size, with the ID as its leading byte on an interface with IDs (R153). -/
theorem zeroReport_eq {size : Nat} (hw : ic.Wf) (hsize : ic.size? ty id = some size) : zeroReport ic ty id =
    if ic.usesIds then id :: List.replicate (size - 1) 0 else List.replicate size 0 := by
  cases hu : ic.usesIds with
  | true => simp [zeroReport, hu, hsize]
  | false =>
    have hid : id = 0 := (hw.1 ty (mem_all ty)).2.1 hu id (mem_ids_of_size hsize)
    subst hid
    simp only [zeroReport, hu, hsize, Option.getD_some, Bool.false_eq_true, if_false]

/-- Settles O27: `getReportOn_known` gives the answer and the cell, `erased_spec` what a taken report leaves. -/
theorem getReportAnswersPendingOrZeroReport : Obligations.GetReportAnswersPendingOrZeroReport := by
  intro s w wLength tc id ix ic cell ty size hrun hr hw hty hsize
  obtain ⟨t, ht, hemit, honly⟩ := request_changes hrun hr (i := .getReport tc id w wLength) rfl
    (getReportOn_known hty (mem_ids_of_size hsize))
  refine ⟨t, _, _, ht, hemit, fun b hb => by rw [hb]; rfl, fun hnone => ?_, honly, fun hkeep => ?_, fun htake => ?_⟩
  · rw [hnone, Option.getD_none, zeroReport_eq hw hsize]
  · simp [answer, unchanged, hkeep]
  · simp only [answer, unchanged, htake, if_true]
    exact erased_spec cell ty id _

/-- Settles O28: the type code is looked at before the ID (R219). -/
theorem getReportStallsOnUnknownReports : Obligations.GetReportStallsOnUnknownReports := by
  intro s w wLength tc id ix ic cell hrun hr
  refine ⟨fun hty => ?_, fun ty hty hid => ?_⟩
  · exact request_leaves hrun hr (i := .getReport tc id w wLength) rfl (by simp only [getReportOn, hty]; rfl)
  · exact request_leaves hrun hr (i := .getReport tc id w wLength) rfl
      (by simp only [getReportOn, hty, if_neg hid]; rfl)

/-- SET_REPORT of an output or feature type (R154). -/
theorem setReportOn_of_type (hty : reportTypeOf c.reqCode tc = some ty) (hne : ty ≠ .input) :
    setReportOn c tc id data n ic cell = storeReport n ty id data ic cell := by
  cases ty with
  | input => exact absurd rfl hne
  | output | feature => simp only [setReportOn, hty]

/-- Settles O29: a valid report's ID is configured, so it is stored (`stored_spec`). -/
theorem setReportStoresAndNotifies : Obligations.SetReportStoresAndNotifies := by
  intro s w wLength tc id data ix ic cell ty hrun hr hty hne hv
  have heffect : setReportOn s.config tc id data ix ic cell =
      ⟨cell.setBuf ty ((cell.buf ty).write id data), [.setReport ix ty id data], .ack⟩ := by
    rw [setReportOn_of_type hty hne, storeReport, if_pos (validReport_mem hv), if_pos hv]
  obtain ⟨t, ht, hemit, honly⟩ := request_changes hrun hr (i := .setReport tc id w wLength data) rfl heffect
  exact ⟨t, _, ht, hemit, honly, stored_spec cell ty id data⟩

/-- Settles O30: the type code, then the ID, then the data stage (R219). -/
theorem setReportStallsInOrder : Obligations.SetReportStallsInOrder := by
  intro s w wLength tc id data ix ic cell hrun hr
  have hleaves : ∀ r, setReportOn s.config tc id data ix ic cell = stall r cell →
      ∃ t, exec (.setReport tc id w wLength data) s = .next t ∧ LeavesBlock s t (.stall r) :=
    fun _ he => request_leaves hrun hr rfl he
  refine ⟨fun hty => hleaves _ ?_, fun ty hty hne => ⟨fun hid => hleaves _ ?_, fun hid hv => hleaves _ ?_⟩⟩
  · rcases hty with hty | hty <;> simp only [setReportOn, hty]
  · rw [setReportOn_of_type hty hne, storeReport, if_neg hid]
  · rw [setReportOn_of_type hty hne, storeReport, if_pos hid, if_neg hv]

/-! ### Idle requests -/

/-- Settles O31: ID 0 answers the default or the only timer, an input ID its timer, and every other ID stalls. -/
theorem getIdleAnswersTheRate : Obligations.GetIdleAnswersTheRate := by
  intro s w wLength id ix ic cell hrun hr
  by_cases h0 : id = 0
  · have heffect : getIdleOn id wLength ix ic cell = unchanged cell
        (.data ([if ic.usesIds then cell.idleDefault else (cell.timer 0).idleRate].take wLength.toNat)) := by
      rw [getIdleOn, if_pos h0]; rfl
    obtain ⟨t, ht, hleaves⟩ := request_leaves hrun hr (i := .getIdle id w wLength) rfl heffect
    exact ⟨t, _, ht, hleaves, fun _ hu => by rw [hu]; rfl, fun _ hu => by rw [hu]; rfl, fun hne => absurd h0 hne,
      fun hne => absurd h0 hne⟩
  · by_cases hin : ic.usesIds = true ∧ id ∈ ic.ids .input
    · have heffect : getIdleOn id wLength ix ic cell =
          unchanged cell (.data ([(cell.timer id).idleRate].take wLength.toNat)) := by
        rw [getIdleOn, if_neg h0, if_pos hin]; rfl
      obtain ⟨t, ht, hleaves⟩ := request_leaves hrun hr (i := .getIdle id w wLength) rfl heffect
      refine ⟨t, _, ht, hleaves, fun h => absurd h h0, fun h => absurd h h0, fun _ _ _ => rfl, fun _ hno => ?_⟩
      rcases hno with hno | hno
      · rw [hin.1] at hno; cases hno
      · exact absurd hin.2 hno
    · have heffect : getIdleOn id wLength ix ic cell = unchanged cell (.stall .unsupportedReportId) := by
        rw [getIdleOn, if_neg h0, if_neg hin]; rfl
      obtain ⟨t, ht, hleaves⟩ := request_leaves hrun hr (i := .getIdle id w wLength) rfl heffect
      exact ⟨t, _, ht, hleaves, fun h => absurd h h0, fun h => absurd h h0, fun _ hu hid => absurd ⟨hu, hid⟩ hin,
        fun _ _ => rfl⟩

/-- The IDs whose timers SET_IDLE addresses: all of them for ID 0 (R157). -/
def addressedIds (ic : IfConfig) (id : Byte) : List ReportId := if id = 0 then ic.ids .input else [id]

/-- The cell whose timers SET_IDLE then sets: the default is written for ID 0 on an interface with IDs (R157). -/
def withIdleDefault (ic : IfConfig) (rate id : Byte) (cell : Cell) : Cell :=
  if id = 0 ∧ ic.usesIds = true then cell.setIdleDefault rate else cell

theorem setIdleOn_addressed (h : id = 0 ∨ ic.usesIds = true ∧ id ∈ ic.ids .input) : setIdleOn rate id n ic cell =
    ⟨setRates rate (addressedIds ic id) (withIdleDefault ic rate id cell), [], .ack⟩ := by
  by_cases h0 : id = 0
  · simp [setIdleOn, addressedIds, withIdleDefault, h0]
  · rw [setIdleOn, addressedIds, withIdleDefault, if_neg h0, if_pos (h.resolve_left h0), if_neg h0,
      if_neg (fun hz => h0 hz.1)]

theorem mem_addressedIds {j : ReportId} (h : id = 0 ∨ ic.usesIds = true ∧ id ∈ ic.ids .input) :
    j ∈ addressedIds ic id ↔ j ∈ ic.ids .input ∧ (id = 0 ∨ j = id) := by
  by_cases h0 : id = 0
  · simp [addressedIds, h0]
  · have hid := (h.resolve_left h0).2
    simp only [addressedIds, if_neg h0, List.mem_singleton]
    exact ⟨fun hj => ⟨hj ▸ hid, .inr hj⟩, fun hj => hj.2.resolve_left h0⟩

/-- Writing the default leaves the protocol, the buffers and the timers. -/
theorem withIdleDefault_spec : (withIdleDefault ic rate id cell).protocol = cell.protocol ∧
    (∀ ty, (withIdleDefault ic rate id cell).buf ty = cell.buf ty) ∧
    (withIdleDefault ic rate id cell).idleDefault = (if id = 0 ∧ ic.usesIds = true then rate else cell.idleDefault) ∧
    ∀ j, (withIdleDefault ic rate id cell).timer j = cell.timer j := by
  simp only [withIdleDefault]
  split <;> simp

/-- Settles O32: `SetRate` runs on the addressed timers only, after the default is written where it is addressed. -/
theorem setIdleSetsTheAddressedRates : Obligations.SetIdleSetsTheAddressedRates := by
  intro s w rate id ix ic cell hrun hr haddr
  obtain ⟨t, ht, hemit, honly⟩ := request_changes hrun hr (i := .setIdle rate id w) rfl (setIdleOn_addressed haddr)
  obtain ⟨hprotocol, hbuf, hdefault, htimer⟩ := withIdleDefault_spec (ic := ic) (rate := rate) (id := id) (cell := cell)
  obtain ⟨ts, hframe⟩ := setRates_frame rate (addressedIds ic id) (withIdleDefault ic rate id cell)
  refine ⟨t, _, ht, hemit, honly, ?_, fun ty => ?_, ?_, fun j => ⟨fun hj => ?_, fun hj => ?_⟩⟩
  · simp only [hframe, hprotocol]
  · rw [← hbuf ty]; simp only [hframe]; cases ty <;> rfl
  · simp only [hframe, hdefault]
  · have hset := setRates_timer_of_mem (r := rate) (cell := withIdleDefault ic rate id cell)
      ((mem_addressedIds haddr).2 hj)
    simp only [hset, htimer]
    exact ⟨rfl, period_toNat, rfl, rfl⟩
  · have hkeep := setRates_timer_of_notMem (r := rate) (cell := withIdleDefault ic rate id cell)
      (fun hmem => hj ((mem_addressedIds haddr).1 hmem))
    simp only [hkeep, htimer]

/-- Settles O33. -/
theorem setIdleStallsOnUnknownId : Obligations.SetIdleStallsOnUnknownId := by
  intro s w rate id ix ic cell hrun hr h0 hno
  have hin : ¬ (ic.usesIds = true ∧ id ∈ ic.ids .input) := by
    rintro ⟨hu, hid⟩
    rcases hno with hno | hno
    · rw [hu] at hno; cases hno
    · exact hno hid
  exact request_leaves hrun hr (i := .setIdle rate id w) rfl (by rw [setIdleOn, if_neg h0, if_neg hin]; rfl)

/-! ### Protocol and descriptor requests -/

/-- Settles O34. -/
theorem getProtocolAnswersTheCode : Obligations.GetProtocolAnswersTheCode := by
  intro s w wLength ix ic cell hrun hr
  have hcode : protocolByte s.config.reqCode cell.protocol =
      if cell.protocol = .boot then s.config.reqCode.protoBoot else s.config.reqCode.protoReport := by
    cases cell.protocol <;> rfl
  rw [← hcode]
  exact request_leaves hrun hr (i := .getProtocol w wLength) rfl rfl

/-- Settles O35: whether the interface is boot-capable is looked at before the value (R219). -/
theorem setProtocolOnlyOnBootInterfaces : Obligations.SetProtocolOnlyOnBootInterfaces := by
  intro s w wValue ix ic cell hrun hr
  refine ⟨fun hboot => ?_, fun hboot => ⟨fun p hp => ?_, fun hp => ?_⟩⟩
  · exact request_leaves hrun hr (i := .setProtocol wValue w) rfl (by simp [setProtocolOn, hboot, stall])
  · exact request_changes hrun hr (i := .setProtocol wValue w) (e := ⟨{ cell with protocol := p }, [], .ack⟩) rfl
      (by simp only [setProtocolOn, hboot, if_true, hp, Cell.setProtocol])
  · exact request_leaves hrun hr (i := .setProtocol wValue w) rfl
      (by simp only [setProtocolOn, hboot, if_true, hp]; rfl)

/-- Settles O36. -/
theorem descriptorRequestsAnswerTheConfiguredBytes : Obligations.DescriptorRequestsAnswerTheConfiguredBytes := by
  intro s w wLength ix ic cell hrun hr
  exact ⟨request_leaves hrun hr (i := .getDescriptorHid w wLength) rfl rfl,
    request_leaves hrun hr (i := .getDescriptorReport w wLength) rfl rfl,
    request_leaves hrun hr (i := .getDescriptorPhysical w wLength) rfl rfl⟩

end Sys2Proof.Machine
end

section
/-! The access table (10_state.md R35): each kind of operation leaves the fields of its column alone that have no W. -/

namespace Sys2Proof.Machine

variable {s t : State} {i : Instr} {f : Field} {c : Config} {w : Half} {ix : Nat} {ic : IfConfig} {cell : Cell}

theorem Field.same_setProtocol {p : Protocol} (h : f ≠ .protocol) : f.Same cell (cell.setProtocol p) := by
  cases f with
  | protocol => exact absurd rfl h
  | _ => simp [Field.Same]

theorem Field.same_setIdleDefault {r : Byte} (h : f ≠ .idleDefault) : f.Same cell (cell.setIdleDefault r) := by
  cases f with
  | idleDefault => exact absurd rfl h
  | _ => simp [Field.Same]

/-- A field without a W is none of the fields with one. -/
theorem columnWrites_ne {f' : Field} {b : Bool} (hf : columnWrites b i f = false) (hw : columnWrites b i f' = true) :
    f ≠ f' := by
  rintro rfl
  rw [hf] at hw
  cases hw

/-- A control request leaves the fields alone that its column has no W for. -/
theorem RequestEffect.same {e : CellEffect} (h : RequestEffect c ix cell i e)
    (hf : columnWrites c.getReportConsumes i f = false) : f.Same cell e.cell := by
  cases h with
  | stalled | answered => exact Field.same_refl f cell
  | taken tc id w l ty v hc =>
    exact Field.same_setBuf (columnWrites_ne hf (by cases ty <;> simp [columnWrites, hc]))
  | stored tc id w l data ty hty =>
    cases ty with
    | input => exact absurd rfl hty
    | output | feature => exact Field.same_setBuf (columnWrites_ne hf rfl)
  | rated rate id w ids base hbase =>
    refine Field.same_trans (cell' := base) ?_
      (Field.same_setRates (columnWrites_ne hf rfl) (columnWrites_ne hf rfl) (columnWrites_ne hf rfl) rate ids base)
    rcases hbase with rfl | rfl
    · exact Field.same_refl f base
    · exact Field.same_setIdleDefault (columnWrites_ne hf rfl)
  | switched => exact Field.same_setProtocol (columnWrites_ne hf rfl)

/-- An operation that names an index leaves the fields of the cell alone that its column has no W for. -/
theorem CallEffect.same {e : CellEffect} {b : Bool} (h : CallEffect ix ic cell i (.ok e))
    (hf : columnWrites b i f = false) : f.Same cell e.cell := by
  cases h with
  | left => exact Field.same_refl f cell
  | written | taken | received => exact Field.same_setBuf (columnWrites_ne hf rfl)

/-- Every operation that names an index has a W for the fault register. -/
theorem callMeaning_writes_fault {g : IfConfig → Cell → Except FaultReason CellEffect} {b : Bool}
    (h : callMeaning i = some (ix, g)) : columnWrites b i .fault = true := by
  cases i with
  | writeReport | readReport | getProtocolCall | outData => rfl
  | _ => cases h

/-- poll, tick and reset leave the fields of every cell alone that their column has no W for. -/
theorem serviceMeaning_same {g : Nat → IfConfig → Cell → Cell × List Event} {b : Bool} (h : serviceMeaning i = some g)
    (hf : columnWrites b i f = false) : f.Same cell (g ix ic cell).1 := by
  cases i with
  | poll accept =>
    cases h
    exact Field.same_pollCell (columnWrites_ne hf rfl) (columnWrites_ne hf rfl) (columnWrites_ne hf rfl)
      (columnWrites_ne hf rfl) accept ix ic cell
  | tick ms =>
    cases h
    exact Field.same_tickTimers (columnWrites_ne hf rfl) (columnWrites_ne hf rfl) ix ms (ic.ids .input) cell
  | reset =>
    have hfault : f = .fault := by simpa [columnWrites] using hf
    rw [hfault]
    exact trivial
  | _ => cases h

/-- Every operation but setup has a column of its own. -/
theorem mayWrite_eq (hi : ∀ p data, i ≠ .setup p data) : mayWrite c i f = columnWrites c.getReportConsumes i f := by
  cases i with
  | setup p data => exact absurd rfl (hi p data)
  | _ => rfl

/-- setup writes what the request it selects writes (R150). -/
theorem mayWrite_setup {p : SetupPacket} {data : Bytes} {r : Request} (h : c.reqCode.select p.key = some r) :
    mayWrite c (.setup p data) f = columnWrites c.getReportConsumes (requestInstr r p data) f := by
  simp only [mayWrite, h]

/-- Settles O52: each kind of operation leaves the fields of its column alone that have no W. -/
theorem operationsWriteOnlyTheirAccessTableFields : Obligations.OperationsWriteOnlyTheirAccessTableFields := by
  intro i s t f h hf
  cases (exec_performed h).2 with
  | request hm =>
    rw [mayWrite_eq (by rintro p data rfl; cases hm)] at hf
    exact Field.unchanged_routed fun _ _ _ => (requestMeaning_effect hm).same hf
  | setup hsel hm =>
    rw [mayWrite_setup hsel] at hf
    exact Field.unchanged_routed fun _ _ _ => (requestMeaning_effect hm).same hf
  | call hm =>
    rw [mayWrite_eq (by rintro p data rfl; cases hm)] at hf
    exact Field.unchanged_onInterface (columnWrites_ne hf (callMeaning_writes_fault hm))
      fun _ _ _ he => (he ▸ callMeaning_effect hm : CallEffect _ _ _ i (.ok _)).same hf
  | service hm =>
    rw [mayWrite_eq (by rintro p data rfl; cases hm)] at hf
    exact Field.unchanged_onEveryInterface fun _ _ _ => serviceMeaning_same hm hf
  | declined => exact Field.unchanged_refl f s.block

end Sys2Proof.Machine
end

section
/-! Outcomes and events (60_exceptions.md R210 to R224): what a rejected or faulting operation leaves, which operations
fault, and which emit an event. -/

namespace Sys2Proof.Machine

variable {s t : State} {i : Instr} {c : Config} {w : Half} {ix : Nat} {ic : IfConfig} {cell : Cell} {e : CellEffect}
  {g : Nat → IfConfig → Cell → CellEffect} {k : IfConfig → Cell → Except FaultReason CellEffect}

/-! ### Rejections -/

/-- An outcome that rejects the operation without a fault (R53, R218). -/
def Result.Rejects (r : Result) : Prop :=
  r = .wouldBlock ∨ (∃ q, r = .stall q) ∨ (∃ q, r = .unhandled q) ∨ ∃ q, r = .dropped q

/-- An effect on the block that changes nothing when it rejects, and only the fault register when it faults. -/
def Effect.Respects (b : Block) (e : Effect) : Prop :=
  (e.result.Rejects → e.block = b ∧ e.events = []) ∧
    ∀ r, e.result = .fault r → e.block.cells = b.cells ∧ e.block.fault = some r

/-- A completed operation neither rejects nor faults (R210). -/
theorem Effect.respects_of_completed {b : Block} {e : Effect} (h : e.result.errorCode = none) : e.Respects b := by
  constructor
  · rintro (hr | ⟨q, hr⟩ | ⟨q, hr⟩ | ⟨q, hr⟩) <;> rw [hr] at h <;> cases h
  · intro r hr
    rw [hr] at h
    cases h

/-- An effect that leaves the block and emits nothing, and is no fault. -/
theorem Effect.respects_of_unchanged {b : Block} {e : Effect} (hb : e.block = b) (he : e.events = [])
    (hr : ∀ q, e.result ≠ .fault q) : e.Respects b :=
  ⟨fun _ => ⟨hb, he⟩, fun q hq => absurd hq (hr q)⟩

theorem Effect.respects_raiseFault {b : Block} {r : FaultReason} : (raiseFault r b).Respects b := by
  constructor
  · rintro (hr | ⟨q, hr⟩ | ⟨q, hr⟩ | ⟨q, hr⟩) <;> cases hr
  · intro q hq
    cases hq
    exact ⟨rfl, rfl⟩

theorem routed_respects (h : requestMeaning c i = some (w, g)) :
    (routed w g s.config s.block).Respects s.block := by
  rcases routed_cases w g s.config s.block with hx | ⟨ix, ic, cell, -, hic, hcell, hx⟩ <;> rw [hx]
  · exact Effect.respects_of_unchanged rfl rfl fun _ hq => nomatch hq
  · have heffect : RequestEffect c ix cell i (g ix ic cell) := requestMeaning_effect h
    generalize g ix ic cell = e at heffect ⊢
    cases heffect with
    | stalled r => exact Effect.respects_of_unchanged (setCell_self ⟨hic, hcell⟩) rfl fun _ hq => nomatch hq
    | answered | taken | stored | rated | switched => exact Effect.respects_of_completed rfl

theorem onInterface_respects (h : callMeaning i = some (ix, k)) :
    (onInterface ix k s.config s.block).Respects s.block := by
  rcases onInterface_cases ix k s.config s.block with ⟨r, hx⟩ | ⟨ic, cell, e, hic, hcell, he, hx⟩ <;> rw [hx]
  · exact Effect.respects_raiseFault
  · have heffect : CallEffect ix ic cell i (.ok e) := he ▸ callMeaning_effect h
    cases heffect with
    | left r hr => exact Effect.respects_of_unchanged (setCell_self ⟨hic, hcell⟩) rfl hr
    | written | taken | received => exact Effect.respects_of_completed rfl

/-- Every performed operation's effect respects the block. -/
theorem exec_respects (h : exec i s = .next t) : ∃ e : Effect, t = commit s e ∧ e.Respects s.block := by
  cases (exec_performed h).2 with
  | request hm | setup _ hm => exact ⟨_, rfl, routed_respects hm⟩
  | call hm => exact ⟨_, rfl, onInterface_respects hm⟩
  | service => exact ⟨_, rfl, Effect.respects_of_completed rfl⟩
  | declined => exact ⟨_, rfl, Effect.respects_of_unchanged rfl rfl fun _ hq => nomatch hq⟩

/-- Settles O53: every effect respects the block (`exec_respects`), which was running before. -/
theorem rejectedOperationsChangeNoState : Obligations.RejectedOperationsChangeNoState := by
  intro i s t o h htrace
  obtain ⟨e, rfl, hrejects, hfaults⟩ := exec_respects h
  obtain rfl : (⟨e.events, e.result⟩ : Output) = o := (List.cons.inj htrace).1
  refine ⟨fun hr => ?_, hfaults⟩
  obtain ⟨hblock, hevents⟩ := hrejects hr
  have hrun : s.block.fault = none := (exec_next h).1
  exact ⟨hblock, hevents, by rw [State.Running, commit_block, hblock, hrun]⟩

/-! ### Faults -/

/-- Only write_report of a report that is not valid raises a fault on an existing interface (R106). -/
theorem callMeaning_error {r : FaultReason} (h : callMeaning i = some (ix, k)) (he : k ic cell = .error r) :
    r = .configError ∧ ∃ b, i = .writeReport ix b ∧ validReport ic .input b = none := by
  have heffect : CallEffect ix ic cell i (.error r) := he ▸ callMeaning_effect h
  cases heffect with
  | invalid b hv => exact ⟨rfl, b, rfl, hv⟩

theorem callMeaning_mem (h : callMeaning i = some (ix, k)) :
    ∃ b, i ∈ [Instr.writeReport ix b, .readReport ix, .getProtocolCall ix, .outData ix b] := by
  cases i with
  | writeReport ix b | outData ix b => cases h; exact ⟨b, by simp⟩
  | readReport ix | getProtocolCall ix => cases h; exact ⟨[], by simp⟩
  | _ => cases h

/-- A fault that an operation on a running block's interface raises: the index has no cell, or the operation's own. -/
theorem onInterface_fault {b : Block} {r : FaultReason} (hb : b.fault = none)
    (h : (onInterface ix k c b).block.fault = some r) :
    (r = .noSuchInterface ∧ cellAt c b ix = none) ∨ ∃ ic cell, c.ifs[ix]? = some ic ∧ k ic cell = .error r := by
  cases hcell : cellAt c b ix with
  | none =>
    simp only [onInterface, hcell] at h
    cases h
    exact .inl ⟨rfl, rfl⟩
  | some q =>
    obtain ⟨ic, cell⟩ := q
    obtain ⟨hic, hc⟩ := cellAt_eq_some.1 hcell
    refine .inr ⟨ic, cell, hic, ?_⟩
    cases hk : k ic cell with
    | error q =>
      rw [onInterface_of_cell hic hc, hk] at h
      cases h
      rfl
    | ok e =>
      rw [onInterface_of_cell hic hc, hk] at h
      cases hb.symm.trans h

/-- In the invariant an index without a cell is no interface's (R20). -/
theorem State.ge_of_no_cell (h : s.Inv) (hc : cellAt s.config s.block ix = none) : s.config.ifs.length ≤ ix := by
  by_contra hlt
  have hic := List.getElem?_eq_getElem (Nat.lt_of_not_le hlt)
  have hcell : s.block.cells[ix]? = some (s.block.cells[ix]'(by rw [h.2.1]; omega)) := List.getElem?_eq_getElem _
  rw [cellAt_eq_some.2 ⟨hic, hcell⟩] at hc
  cases hc

/-- Settles O54: the block was running, so a fault in the next state was raised by this operation, which names an
index. -/
theorem onlyProgrammerErrorsFault : Obligations.OnlyProgrammerErrorsFault := by
  intro i s t r h hr
  obtain ⟨hrun, hperformed⟩ := exec_performed h
  have hfault : s.block.fault = none := hrun
  cases hperformed with
  | request | setup => cases hfault.symm.trans ((routed_fault ..).symm.trans hr)
  | service | declined => cases hfault.symm.trans hr
  | call hm =>
    rcases onInterface_fault hfault hr with ⟨rfl, hnone⟩ | ⟨ic, cell, hic, herror⟩
    · obtain ⟨b, hmem⟩ := callMeaning_mem hm
      exact .inr ⟨rfl, _, b, hmem, fun hinv => State.ge_of_no_cell hinv hnone⟩
    · obtain ⟨rfl, b, rfl, hv⟩ := callMeaning_error hm herror
      exact .inl ⟨rfl, _, b, ic, rfl, hic, hv⟩

/-! ### Events -/

/-- A request's only event is a SET_REPORT's notification (R155, R223). -/
theorem routed_events {b : Block} {x : Event} (h : requestMeaning c i = some (w, g))
    (hx : x ∈ (routed w g c b).events) : (∃ n ty id data, x = .setReport n ty id data) ∧
      ∃ tc id w l data, i = .setReport tc id w l data := by
  rcases routed_cases w g c b with hr | ⟨ix, ic, cell, -, -, -, hr⟩ <;> rw [hr] at hx
  · cases hx
  · have heffect : RequestEffect c ix cell i (g ix ic cell) := requestMeaning_effect h
    generalize g ix ic cell = e at heffect hx
    cases heffect with
    | stored tc id w l data ty => exact ⟨⟨_, _, _, _, List.mem_singleton.1 hx⟩, _, _, _, _, _, rfl⟩
    | stalled | answered | taken | rated | switched => cases hx

/-- The only event of an operation that names an index is out_data's notification (R194, R223). -/
theorem onInterface_events {b : Block} {x : Event} (h : callMeaning i = some (ix, k))
    (hx : x ∈ (onInterface ix k c b).events) : (∃ n ty id data, x = .setReport n ty id data) ∧
      ∃ data, i = .outData ix data := by
  rcases onInterface_cases ix k c b with ⟨r, hr⟩ | ⟨ic, cell, e, -, -, he, hr⟩ <;> rw [hr] at hx
  · cases hx
  · have heffect : CallEffect ix ic cell i (.ok e) := he ▸ callMeaning_effect h
    cases heffect with
    | received data id => exact ⟨⟨_, _, _, _, List.mem_singleton.1 hx⟩, data, rfl⟩
    | left | written | taken => cases hx

theorem pollCell_event {accept : List Bool} {x : Event} (hx : x ∈ (pollCell accept ix ic cell).2) :
    (∃ b, x = .inTransmit ix b) ∨ x = .inBusy ix := by
  simp only [pollCell] at hx
  split at hx
  · cases hx
  · split at hx
    · exact .inl ⟨_, List.mem_singleton.1 hx⟩
    · exact .inr (List.mem_singleton.1 hx)

theorem tickTimers_event {ms : Word} {ids : List ReportId} {x : Event} (hx : x ∈ (tickTimers ix ms ids cell).2) :
    ∃ id, x = .idleExpired ix id := by
  induction ids generalizing cell with
  | nil => cases hx
  | cons j ids ih =>
    simp only [tickTimers] at hx
    split at hx
    · rcases List.mem_cons.1 hx with rfl | hx
      · exact ⟨j, rfl⟩
      · exact ih hx
    · exact ih hx

/-- An event of a service is one of its interfaces' own. -/
theorem onEveryInterface_events {f : Nat → IfConfig → Cell → Cell × List Event} {b : Block} {x : Event}
    (hx : x ∈ (onEveryInterface f c b).events) : ∃ ix ic cell, x ∈ (f ix ic cell).2 := by
  rw [onEveryInterface, serviceFrom_events, List.mem_flatMap] at hx
  obtain ⟨p, -, hp⟩ := hx
  exact ⟨_, _, _, hp⟩

/-- poll's and tick's events (R190, R132, R223). -/
theorem serviceMeaning_event {f : Nat → IfConfig → Cell → Cell × List Event} {x : Event} (h : serviceMeaning i = some f)
    (hx : x ∈ (f ix ic cell).2) :
    ((∃ a, i = .poll a) ∧ ((∃ b, x = .inTransmit ix b) ∨ x = .inBusy ix)) ∨
      (∃ ms, i = .tick ms) ∧ ∃ id, x = .idleExpired ix id := by
  cases i with
  | poll a => cases h; exact .inl ⟨⟨a, rfl⟩, pollCell_event hx⟩
  | tick ms => cases h; exact .inr ⟨⟨ms, rfl⟩, tickTimers_event hx⟩
  | reset => cases h; cases hx
  | _ => cases h

/-- Only SET_REPORT's row selects SET_REPORT. -/
theorem request_of_setReport {r : Request} {p : SetupPacket} {data d : Bytes} {tc id : Byte} {l : Half}
    (h : requestInstr r p data = .setReport tc id w l d) : r = .setReport := by
  cases r with
  | setReport => rfl
  | _ => cases h

/-- Settles O55: each kind of operation emits its own events only. -/
theorem eventsComeFromTheirOperations : Obligations.EventsComeFromTheirOperations := by
  intro i s t o x h htrace hx
  cases (exec_performed h).2 with
  | request hm =>
    obtain rfl := (List.cons.inj htrace).1
    obtain ⟨⟨n, ty, id, data, rfl⟩, hi⟩ := routed_events hm hx
    exact .inl hi
  | @setup p data r g hsel hm =>
    obtain rfl := (List.cons.inj htrace).1
    obtain ⟨⟨n, ty, id, b, rfl⟩, tc, rid, w, l, d, hi⟩ := routed_events hm hx
    exact .inr (.inr ⟨p, data, rfl, request_of_setReport hi ▸ hsel⟩)
  | call hm =>
    obtain rfl := (List.cons.inj htrace).1
    obtain ⟨⟨n, ty, id, b, rfl⟩, data, hi⟩ := onInterface_events hm hx
    exact .inr (.inl ⟨_, data, hi⟩)
  | service hm =>
    obtain rfl := (List.cons.inj htrace).1
    obtain ⟨ix, ic, cell, hown⟩ := onEveryInterface_events hx
    rcases serviceMeaning_event hm hown with ⟨hpoll, ⟨b, rfl⟩ | rfl⟩ | ⟨htick, id, rfl⟩
    · exact hpoll
    · exact hpoll
    · exact htick
  | declined =>
    obtain rfl := (List.cons.inj htrace).1
    cases hx

/-- Settles O60. -/
theorem errorCodesAreTheListed : Obligations.ErrorCodesAreTheListed :=
  ⟨rfl, rfl, fun _ => rfl, rfl, rfl, fun _ => rfl, fun _ => rfl, fun _ => rfl⟩

end Sys2Proof.Machine
end

section
/-! Side effects and producers (20_memory.md R56, R58): reading operations change nothing, writing ones done twice leave
what they left the first time, and a new report comes from its direction's producer. -/

namespace Sys2Proof.Machine

variable {s t u : State} {i : Instr} {c : Config} {w : Half} {ix n : Nat} {ic : IfConfig} {cell : Cell} {e : CellEffect}
  {g : Nat → IfConfig → Cell → CellEffect} {k : IfConfig → Cell → Except FaultReason CellEffect}
  {f : Nat → IfConfig → Cell → Cell × List Event}

/-! ### Reading operations -/

/-- A request that leaves every cell it can reach leaves the state tuple. -/
theorem routed_block_of_reading (hg : ∀ ix ic cell, (g ix ic cell).cell = cell) :
    (routed w g s.config s.block).block = s.block := by
  rcases routed_cases w g s.config s.block with hx | ⟨ix, ic, cell, -, hic, hcell, hx⟩ <;> rw [hx]
  · rfl
  · show s.block.setCell ix (g ix ic cell).cell = s.block
    rw [hg, setCell_self ⟨hic, hcell⟩]

/-- A next state of a request. -/
theorem request_next (hm : requestMeaning s.config i = some (w, g)) (h : exec i s = .next t) :
    t = commit s (routed w g s.config s.block) := by
  rw [exec_requestMeaning hm] at h
  exact (perform_next h).2

/-- A request that the access table gives no W leaves its cell. -/
theorem RequestEffect.cell_of_reading (h : RequestEffect c ix cell i e)
    (hi : ∀ f, columnWrites c.getReportConsumes i f = false) : e.cell = cell := by
  cases h with
  | stalled | answered => rfl
  | taken tc id w l ty v hc =>
    have hinput := hi (.buf .input)
    simp [columnWrites, hc] at hinput
  | stored => cases hi (.buf .output)
  | rated => cases hi .idleRate
  | switched => cases hi .protocol

/-- A request that the access table gives no W leaves the state tuple. -/
theorem request_reading (hm : requestMeaning s.config i = some (w, g))
    (hi : ∀ f, columnWrites s.config.getReportConsumes i f = false) (h : exec i s = .next t) : t.block = s.block := by
  rw [request_next hm h]
  exact routed_block_of_reading fun _ _ _ => (requestMeaning_effect hm).cell_of_reading hi

/-- Settles O56: each reading operation leaves the cell it reaches. -/
theorem readingOperationsHaveNoSideEffects : Obligations.ReadingOperationsHaveNoSideEffects := by
  intro s t i h hi
  rcases hi with ⟨id, w, l, rfl⟩ | ⟨w, l, rfl⟩ | ⟨w, l, rfl⟩ | ⟨w, l, rfl⟩ | ⟨w, l, rfl⟩ | ⟨ix, ic, cell, rfl, hc⟩ |
    ⟨hconsumes, tc, id, w, l, rfl⟩
  · exact request_reading rfl (fun _ => rfl) h
  · exact request_reading rfl (fun _ => rfl) h
  · exact request_reading rfl (fun _ => rfl) h
  · exact request_reading rfl (fun _ => rfl) h
  · exact request_reading rfl (fun _ => rfl) h
  · have hon : getProtocolOn ic cell = .ok (unchanged cell (.protocol cell.protocol)) := rfl
    rw [(call_stores rfl hc hon h).1]
    exact setCell_self hc
  · exact request_reading rfl (fun f => by simp [columnWrites, hconsumes]) h

/-! ### Idempotence -/

/-- A loop of commuting idempotent updates is idempotent. -/
theorem foldl_idempotent {α ι : Type} {f : α → ι → α} (hcomm : ∀ a i j, f (f a i) j = f (f a j) i)
    (hidem : ∀ a i, f (f a i) i = f a i) (l : List ι) (a : α) : l.foldl f (l.foldl f a) = l.foldl f a := by
  have hpush : ∀ (l : List ι) (a : α) (i : ι), l.foldl f (f a i) = f (l.foldl f a) i := by
    intro l
    induction l with
    | nil => exact fun _ _ => rfl
    | cons j l ih => exact fun a i => (congrArg (l.foldl f) (hcomm a i j)).trans (ih (f a j) i)
  induction l generalizing a with
  | nil => rfl
  | cons i l ih =>
    show l.foldl f (f (l.foldl f (f a i)) i) = l.foldl f (f a i)
    rw [hpush l a i, hidem, hpush l, ih]

/-- A request whose effect on a cell is idempotent is idempotent on the block. -/
theorem routed_idempotent (hg : ∀ ix ic cell, (g ix ic (g ix ic cell).cell).cell = (g ix ic cell).cell) :
    (routed w g s.config (routed w g s.config s.block).block).block = (routed w g s.config s.block).block := by
  rcases routed_cases w g s.config s.block with hx | ⟨ix, ic, cell, hindex, hic, hcell, hx⟩
  · have hblock : (routed w g s.config s.block).block = s.block := by rw [hx]; rfl
    rw [hblock, hblock]
  · obtain ⟨-, -, hnew, -⟩ := onlyCellBecomes_store ⟨hic, hcell⟩ (g ix ic cell)
    have hroutes : (commit s (s.block.store ix (g ix ic cell))).Routes w ix ic (g ix ic cell).cell :=
      ⟨hindex, hic, hnew⟩
    have hagain := routed_of_routes (g := g) hroutes
    rw [commit_config, commit_block] at hagain
    rw [hx, hagain]
    show (s.block.store ix (g ix ic cell)).block.setCell ix (g ix ic (g ix ic cell).cell).cell = _
    rw [hg]
    exact setCell_self hroutes.2

theorem request_idempotent (hm : requestMeaning s.config i = some (w, g))
    (hg : ∀ ix ic cell, (g ix ic (g ix ic cell).cell).cell = (g ix ic cell).cell) (ht : exec i s = .next t)
    (hu : exec i t = .next u) : u.block = t.block := by
  have hm' : requestMeaning t.config i = some (w, g) := (exec_next ht).2.1 ▸ hm
  rw [request_next hm' hu, request_next hm ht]
  exact routed_idempotent (s := s) hg

/-- An operation that names an index, and that on its interface accepts again what it left, is idempotent. -/
theorem call_idempotent (hm : callMeaning i = some (ix, k))
    (hk : ∀ ic cell e, k ic cell = .ok e → ∃ e', k ic e.cell = .ok e' ∧ e'.cell = e.cell) (ht : exec i s = .next t)
    (hu : exec i t = .next u) : u.block = t.block := by
  rcases onInterface_cases ix k s.config s.block with ⟨r, hx⟩ | ⟨ic, cell, e, hic, hcell, he, -⟩
  · have hrun : t.block.fault = none := (exec_next hu).1
    rw [call_next hm ht, hx] at hrun
    cases hrun
  · obtain ⟨-, hc⟩ := call_stores hm ⟨hic, hcell⟩ he ht
    obtain ⟨e', he', hsame⟩ := hk ic cell e he
    rw [(call_stores hm hc he' hu).1, hsame, setCell_self hc]

theorem serviceFrom_idempotent (hf : ∀ i ic cell, (f i ic (f i ic cell).1).1 = (f i ic cell).1) (n : Nat)
    (ics : List IfConfig) (cells : List Cell) :
    (serviceFrom f n ics (serviceFrom f n ics cells).1).1 = (serviceFrom f n ics cells).1 := by
  induction ics generalizing n cells with
  | nil => simp [serviceFrom]
  | cons ic ics ih =>
    cases cells with
    | nil => simp [serviceFrom]
    | cons cell cells => simp [serviceFrom, hf, ih]

theorem writeReportOn_idempotent {b : Bytes} (he : writeReportOn b ic cell = .ok e) :
    ∃ e', writeReportOn b ic e.cell = .ok e' ∧ e'.cell = e.cell := by
  cases hv : validReport ic .input b with
  | none => simp only [writeReportOn, hv] at he; cases he
  | some id =>
    rw [writeReportOn_of_valid hv] at he
    cases he
    exact ⟨_, writeReportOn_of_valid hv, by simp [Buffer.write_write]⟩

theorem outDataOn_idempotent {b : Bytes} (he : outDataOn n b ic cell = .ok e) :
    ∃ e', outDataOn n b ic e.cell = .ok e' ∧ e'.cell = e.cell := by
  cases hv : validReport ic .output b with
  | none =>
    have hdropped : outDataOn n b ic cell = .ok (unchanged cell (.dropped .malformedRequest)) := by
      simp only [outDataOn, hv]
    cases hdropped.symm.trans he
    exact ⟨_, he, rfl⟩
  | some id =>
    rw [outDataOn_of_valid hv] at he
    cases he
    exact ⟨_, outDataOn_of_valid hv, by simp [Buffer.write_write]⟩

theorem storeReport_idempotent {ty : ReportType} {id : Byte} {b : Bytes} :
    (storeReport n ty id b ic (storeReport n ty id b ic cell).cell).cell = (storeReport n ty id b ic cell).cell := by
  by_cases hid : id ∈ ic.ids ty
  · by_cases hv : validReport ic ty b = some id
    · simp [storeReport, hid, hv, Buffer.write_write]
    · simp [storeReport, hid, hv, stall, unchanged]
  · simp [storeReport, hid, stall, unchanged]

theorem setReportOn_idempotent {tc id : Byte} {b : Bytes} :
    (setReportOn c tc id b n ic (setReportOn c tc id b n ic cell).cell).cell =
      (setReportOn c tc id b n ic cell).cell := by
  cases hty : reportTypeOf c.reqCode tc with
  | none => simp only [setReportOn, hty, stall, unchanged]
  | some ty =>
    cases ty with
    | input => simp only [setReportOn, hty, stall, unchanged]
    | output | feature =>
      simp only [setReportOn_of_type hty (by decide)]
      exact storeReport_idempotent

/-- `SetRate` on the timer an ID has in a timer map. -/
def setRateIn (r : Byte) (m : List (ReportId × Timer)) (id : ReportId) : List (ReportId × Timer) :=
  Assoc.set m id (((Assoc.get m id).getD Timer.absent).setRate r)

/-- SET_IDLE's loop goes over the cell's timer map. -/
theorem setRates_eq_foldl {r : Byte} {ids : List ReportId} :
    setRates r ids cell = { cell with timers := ids.foldl (setRateIn r) cell.timers } := by
  induction ids generalizing cell with
  | nil => rfl
  | cons id ids ih => exact ih (cell := cell.setTimer id ((cell.timer id).setRate r))

theorem Timer.setRate_setRate {x : Timer} {r : Byte} : (x.setRate r).setRate r = x.setRate r := by
  simp only [Timer.setRate, dueAfterRate]
  split <;> rfl

/-- Setting the rates of some timers twice is setting them once (R134). -/
theorem setRates_foldl_idempotent {r : Byte} (ids : List ReportId) (m : List (ReportId × Timer)) :
    ids.foldl (setRateIn r) (ids.foldl (setRateIn r) m) = ids.foldl (setRateIn r) m := by
  refine foldl_idempotent (fun m i j => ?_) (fun m i => ?_) ids m
  · by_cases hij : i = j
    · rw [hij]
    · simp only [setRateIn, Assoc.get_set_of_ne hij, Assoc.get_set_of_ne (Ne.symm hij)]
      exact Assoc.set_comm hij
  · simp [setRateIn, Timer.setRate_setRate]

theorem setIdleOn_idempotent {rate id : Byte} :
    (setIdleOn rate id n ic (setIdleOn rate id n ic cell).cell).cell = (setIdleOn rate id n ic cell).cell := by
  by_cases haddr : id = 0 ∨ ic.usesIds = true ∧ id ∈ ic.ids .input
  · simp only [setIdleOn_addressed haddr, setRates_eq_foldl, withIdleDefault]
    split <;> simp only [Cell.setIdleDefault, setRates_foldl_idempotent]
  · have hstall : ∀ cell, setIdleOn rate id n ic cell = stall .unsupportedReportId cell := fun cell => by
      rw [setIdleOn, if_neg fun h => haddr (.inl h), if_neg fun h => haddr (.inr h)]
    rw [hstall, hstall]
    rfl

theorem setProtocolOn_idempotent {v : Half} :
    (setProtocolOn c v n ic (setProtocolOn c v n ic cell).cell).cell = (setProtocolOn c v n ic cell).cell := by
  simp only [setProtocolOn]
  split
  · split <;> rfl
  · rfl

theorem resetCell_idempotent : (resetCell n ic (resetCell n ic cell).1).1 = (resetCell n ic cell).1 := by
  have htimers := foldl_idempotent (f := fun m id => Assoc.set m id (resetTimer ic))
    (fun m i j => by
      by_cases hij : i = j
      · rw [hij]
      · exact Assoc.set_comm hij)
    (fun m i => Assoc.set_set) (ic.ids .input) cell.timers
  simp only [resetCell_eq, htimers]
  split <;> rfl

/-- Settles O57: each writing operation's effect on a cell is idempotent. -/
theorem writingOperationsAreIdempotent : Obligations.WritingOperationsAreIdempotent := by
  intro i s t u ht hu hi
  rcases hi with ⟨ix, b, rfl⟩ | ⟨tc, id, w, l, data, rfl⟩ | ⟨ix, b, rfl⟩ | ⟨rate, id, w, rfl⟩ | ⟨v, w, rfl⟩ | rfl
  · exact call_idempotent rfl (fun _ _ _ => writeReportOn_idempotent) ht hu
  · exact request_idempotent (g := setReportOn s.config tc id data) rfl (fun _ _ _ => setReportOn_idempotent) ht hu
  · exact call_idempotent rfl (fun _ _ _ => outDataOn_idempotent) ht hu
  · exact request_idempotent (g := setIdleOn rate id) rfl (fun _ _ _ => setIdleOn_idempotent) ht hu
  · exact request_idempotent (g := setProtocolOn s.config v) rfl (fun _ _ _ => setProtocolOn_idempotent) ht hu
  · obtain ⟨-, rfl⟩ := perform_next ht
    obtain ⟨-, rfl⟩ := perform_next hu
    exact congrArg (Block.mk · s.block.fault)
      (serviceFrom_idempotent (f := resetCell) (fun _ _ _ => resetCell_idempotent) 0 _ _)

/-! ### Producers -/

/-- Every report that is new in the second cell is of a type that `P` allows. -/
def NewOnly (P : ReportType → Prop) (cell cell' : Cell) : Prop :=
  ∀ ty id b, (cell'.buf ty).get id = some b → (cell.buf ty).get id ≠ some b → P ty

variable {P : ReportType → Prop} {ty : ReportType} {cell' : Cell}

theorem newOnly_of_bufs (h : ∀ ty, cell'.buf ty = cell.buf ty) : NewOnly P cell cell' := by
  intro ty id b hnew hold
  rw [h ty] at hnew
  exact absurd hnew hold

theorem newOnly_refl (cell : Cell) : NewOnly P cell cell := newOnly_of_bufs fun _ => rfl

/-- A report that is stored is of its buffer's type. -/
theorem newOnly_write {id : ReportId} {b : Bytes} (h : P ty) :
    NewOnly P cell (cell.setBuf ty ((cell.buf ty).write id b)) := by
  intro ty' id' b' hnew hold
  by_cases hty : ty' = ty
  · exact hty ▸ h
  · rw [Cell.buf_setBuf_of_ne _ _ hty] at hnew
    exact absurd hnew hold

/-- Taking a report out of a buffer puts none in. -/
theorem newOnly_erase {id : ReportId} {order : List ReportId} :
    NewOnly P cell (cell.setBuf ty ⟨Assoc.erase (cell.buf ty).slot id, order⟩) := by
  intro ty' id' b' hnew hold
  obtain ⟨-, hgone, hother, -⟩ := erased_spec cell ty id order
  by_cases hty : ty' = ty
  · subst hty
    by_cases hid : id' = id
    · rw [hid, hgone] at hnew; cases hnew
    · rw [hother id' hid] at hnew; exact absurd hnew hold
  · rw [Cell.buf_setBuf_of_ne _ _ hty] at hnew
    exact absurd hnew hold

/-- A request puts reports into output and feature buffers only (R154). -/
theorem RequestEffect.newOnly (h : RequestEffect c ix cell i e) (hP : ∀ ty, ty ≠ .input → P ty) :
    NewOnly P cell e.cell := by
  cases h with
  | stalled | answered => exact newOnly_refl cell
  | taken => exact newOnly_erase
  | stored tc id w l data ty hty => exact newOnly_write (hP ty hty)
  | rated rate id w ids base hbase =>
    exact newOnly_of_bufs fun ty =>
      (RequestEffect.rated (c := c) (ix := ix) rate id w ids base hbase).same (f := .buf ty) rfl
  | switched => exact newOnly_of_bufs fun ty => Cell.buf_setProtocol ..

/-- Of the operations that name an index, write_report puts reports into input buffers and out_data into output buffers
(R106, R194). -/
theorem CallEffect.newOnly (h : CallEffect ix ic cell i (.ok e))
    (hP : ∀ ty, i.agent = (if ty = .input then .app else .usb) → P ty) : NewOnly P cell e.cell := by
  cases h with
  | left => exact newOnly_refl cell
  | written => exact newOnly_write (hP .input rfl)
  | taken => exact newOnly_erase
  | received => exact newOnly_write (hP .output rfl)

/-- A transmission takes a report out, or none. -/
theorem sent_newOnly {x : Candidate} : NewOnly P cell (sent x cell) := by
  have htimer : ∀ (c : Cell) (y : Timer), NewOnly P cell c → NewOnly P cell (c.setTimer x.id y) := by
    intro c y hc ty id b hnew
    rw [Cell.buf_setTimer] at hnew
    exact hc ty id b hnew
  refine htimer _ _ ?_
  split
  · split
    · next b rest hread =>
      obtain ⟨id, ids, -, -, rfl⟩ := Buffer.read_eq_some hread
      exact newOnly_erase
    · exact newOnly_refl cell
  · exact newOnly_refl cell

/-- poll, tick and reset put no report into a buffer. -/
theorem serviceMeaning_newOnly (h : serviceMeaning i = some f) : NewOnly P cell (f ix ic cell).1 := by
  cases i with
  | poll accept =>
    cases h
    simp only [pollCell]
    split
    · exact newOnly_refl cell
    · split
      · exact sent_newOnly
      · exact newOnly_refl cell
  | tick ms => exact newOnly_of_bufs fun ty => serviceMeaning_same (f := .buf ty) (b := true) h rfl
  | reset =>
    cases h
    intro ty id b hnew
    rw [resetCell_eq] at hnew
    cases ty <;> cases hnew
  | _ => cases h

/-- A control request is issued by the Usb agent (R226). -/
theorem requestMeaning_agent (h : requestMeaning c i = some (w, g)) : i.agent = .usb := by
  have hindex : requestIndex i = some w := by rw [← requestMeaning_index (c := c), h]; rfl
  rw [Instr.agent, requestIndex_isSome.1 (by rw [hindex]; rfl), Format.agent]

/-- Settles O59: each kind of operation puts only reports of its agent's types into a buffer. -/
theorem reportsComeFromTheirProducer : Obligations.ReportsComeFromTheirProducer := by
  intro i s t ix cell cell' ty id b h hcell hcell' hnew hold
  suffices NewOnly (fun ty => i.agent = (if ty = .input then .app else .usb)) cell cell' from this ty id b hnew hold
  cases (exec_performed h).2 with
  | request hm =>
    refine routed_cell newOnly_refl (fun _ _ _ => (requestMeaning_effect hm).newOnly fun ty hty => ?_) hcell hcell'
    rw [if_neg hty]
    exact requestMeaning_agent hm
  | setup _ hm =>
    refine routed_cell newOnly_refl (fun _ _ _ => (requestMeaning_effect hm).newOnly fun ty hty => ?_) hcell hcell'
    rw [if_neg hty]
    rfl
  | call hm => exact onInterface_cell newOnly_refl (fun _ _ _ he =>
      (he ▸ callMeaning_effect hm : CallEffect _ _ _ i (.ok _)).newOnly fun _ h => h) hcell hcell'
  | service hm => exact onEveryInterface_cell newOnly_refl (fun _ _ _ => serviceMeaning_newOnly hm) hcell hcell'
  | declined =>
    cases hcell.symm.trans hcell'
    exact newOnly_refl cell

end Sys2Proof.Machine
end
